-- ==== Sys2Proof/Word.lean ====
section
/-! DEFINITION. The word types of the machine: a byte, and the index of a general register. -/

namespace Sys2Proof

/-- A register value, a memory cell, an opcode or an operand field: an unsigned 8-bit value
(R8 of 00_scope.md, R21 and R35 of 10_state.md). -/
abbrev Byte := BitVec 8

/-- The index of a general register, 0..7 (R21 of 10_state.md). A register FIELD of an encoded
instruction is a whole byte; the decoder turns a valid one into a `Reg` (R73 of 30_encoding.md). -/
abbrev Reg := Fin 8

end Sys2Proof
end

