-- ==== Sys2Proof/Config.lean ====
section
/-! DEFINITION. The parameters of the hardware (R6 and R7 of 00_scope.md) and its free values.

The values are the document's, kept as named parameters (D20 of 92_eei_decisions.md,
log entry 19). The layers that
use one do so through a definition of their own (`Machine/Ops.lean`, `Machine/Flags.lean`,
`Decode.lean`). -/

namespace Sys2Proof

/-- The configuration parameter `opcode_map` with `OPC_ADDI` (R7 of 00_scope.md, D1 and D2 of 92_eei_decisions.md):
the opcode byte of each mnemonic. The decoder, the encoder and the step take it as an argument; the map this machine
is built with is `opcodeMap` of Decode.lean. -/
structure OpcodeMap where
  hlt : Byte
  ldi : Byte
  ld : Byte
  st : Byte
  prn : Byte
  pra : Byte
  add : Byte
  sub : Byte
  mul : Byte
  div : Byte
  mod : Byte
  and : Byte
  or : Byte
  xor : Byte
  shl : Byte
  shr : Byte
  not : Byte
  /-- `OPC_ADDI` (R79 of 30_encoding.md). -/
  addi : Byte
  inc : Byte
  dec : Byte
  push : Byte
  pop : Byte
  call : Byte
  ret : Byte
  cmp : Byte
  jmp : Byte
  jeq : Byte
  jne : Byte
  jgt : Byte
  jge : Byte
  jle : Byte
  int : Byte
  iret : Byte
  nop : Byte
deriving DecidableEq, Repr

end Sys2Proof

namespace Sys2Proof.Config

/-- `MEM_SIZE`: memory cells, so the valid addresses are 0..255 (R6 of 00_scope.md). -/
@[simp] def memSize : Nat := 256

/-- `NREGS`: general registers (R6 of 00_scope.md). -/
@[simp] def nregs : Nat := 8

/-- `SP_REG`: the register used as stack pointer (R6 of 00_scope.md). -/
@[simp] def spReg : Nat := 7

/-- `SP_INIT`: the stack pointer at run start, and the threshold of the empty stack
(R6 of 00_scope.md, R191 of 43_stack_and_subroutine.md). -/
@[simp] def spInit : Nat := 244

/-- `TICK_REG`: the register the tick clears (R6 of 00_scope.md). -/
@[simp] def tickReg : Nat := 6

/-- `PC_INIT`: the program counter at construction (R6 of 00_scope.md). -/
@[simp] def pcInit : Nat := 0

/-- The flag bits E, G and L of FL (R9 of 00_scope.md, R29 of 10_state.md). -/
@[simp] def flagE : Nat := 0
@[inherit_doc flagE, simp] def flagG : Nat := 1
@[inherit_doc flagE, simp] def flagL : Nat := 2

/-- FREE VALUE (log entry 2): which of the 223 bytes that the other 33 opcodes leave is `OPC_ADDI`,
counted in rising order. `OPC_ADDI` is OPEN (R7 of 00_scope.md, R79 of 30_encoding.md): the index has
no body, so nothing can be proved of it beyond what R79 says. -/
opaque opcAddiIndex : Fin 223

/-- FREE VALUE (log entry 3): whether the tick fires at the `n`-th step of a run, where no draw has
been laid down in the state for that step. Drawn "at every step under no law"
(R112 of 40_execution_loop.md). -/
opaque tickDraw : Nat → Bool

end Sys2Proof.Config
end

