-- ==== Sys2Proof/Syntax.lean ====
section
/-! DEFINITION. The instructions: one constructor per row of the opcode table
(R75 of 30_encoding.md), in the table's order.

A field of kind R is a `Reg`, a field of kind I, M or U is a `Byte` (R72 of 30_encoding.md). A field of
kind U is kept, so that an instruction has exactly one encoding. -/

namespace Sys2Proof

/-- The 34 instructions of R75 of 30_encoding.md. -/
inductive Instr where
  /-- HLT: halt (R216). -/
  | hlt
  /-- LDI: load the immediate `b` (R130). -/
  | ldi (a : Reg) (b : Byte)
  /-- LD: load from the address in `b` (R131). -/
  | ld (a b : Reg)
  /-- ST: store `b` at the address found in memory at `a` (R132, R80). -/
  | st (a : Byte) (b : Reg)
  /-- PRN: print a register as a number (R133). -/
  | prn (a : Reg)
  /-- PRA: print a register (R134). -/
  | pra (a : Reg)
  /-- ADD (R153). -/
  | add (a b : Reg)
  /-- SUB (R154). -/
  | sub (a b : Reg)
  /-- MUL (R155). -/
  | mul (a b : Reg)
  /-- DIV (R156). -/
  | div (a b : Reg)
  /-- MOD (R157). -/
  | mod (a b : Reg)
  /-- AND (R158). -/
  | and (a b : Reg)
  /-- OR (R159). -/
  | or (a b : Reg)
  /-- XOR (R160). -/
  | xor (a b : Reg)
  /-- SHL (R161). -/
  | shl (a b : Reg)
  /-- SHR (R162). -/
  | shr (a b : Reg)
  /-- NOT (R163). -/
  | not (a : Reg)
  /-- ADDI: add the immediate `b` (R164). -/
  | addi (a : Reg) (b : Byte)
  /-- INC (R165). -/
  | inc (a : Reg)
  /-- DEC (R166). -/
  | dec (a : Reg)
  /-- PUSH (R190). -/
  | push (a : Reg)
  /-- POP (R191). -/
  | pop (a : Reg)
  /-- CALL: call the subroutine whose address is in `a` (R192). -/
  | call (a : Reg)
  /-- RET (R193). -/
  | ret
  /-- CMP (R167). -/
  | cmp (a b : Reg)
  /-- JMP: jump to the address in `a` (R210). -/
  | jmp (a : Reg)
  /-- JEQ: jump if equal (R211). -/
  | jeq (a : Reg)
  /-- JNE: jump if not equal (R212). -/
  | jne (a : Reg)
  /-- JGT: a stub, its field is unused (R213). -/
  | jgt (a : Byte)
  /-- JGE: a stub, its field is unused (R214). -/
  | jge (a : Byte)
  /-- JLE: a stub, its field is unused (R215). -/
  | jle (a : Byte)
  /-- INT: a near no-op, its field is unused (R218). -/
  | int (a : Byte)
  /-- IRET: a near no-op (R219). -/
  | iret
  /-- NOP (R217). -/
  | nop
deriving DecidableEq, Repr

end Sys2Proof
end

