-- ==== Sys2Proof/WellFormed.lean ====
section
/-! DEFINITION. When the operand fields of an encoded instruction are well formed.

An `Instr` carries its register operands as `Reg`, so every `Instr` is well formed; what can be ill formed
is the list of operand BYTES that follow an opcode. Two checks: there are exactly as many bytes as the
opcode has operands (R70 of 30_encoding.md), and every field of kind R is below 8 (R73). -/

namespace Sys2Proof

/-- The kind of an operand field (R72 of 30_encoding.md). -/
inductive OperandKind where
  /-- A register index, which must be 0..7. -/
  | R
  /-- An unsigned immediate byte. -/
  | I
  /-- A memory address byte (ST's first operand). -/
  | M
  /-- Fetched, then ignored. -/
  | U
deriving DecidableEq, Repr

/-- Whether a byte is a valid field of this kind: only kind R is checked (R73, R80 of 30_encoding.md,
R105 of 40_execution_loop.md). -/
def OperandKind.accepts : OperandKind → Byte → Bool
  | .R, field => decide (field.toNat < Config.nregs)
  | .I, _ => true
  | .M, _ => true
  | .U, _ => true

/-- The check on the operand bytes of an opcode whose fields have these kinds: as many bytes as kinds,
each accepted by its kind. -/
def fieldsWellFormed : List OperandKind → List Byte → Bool
  | [], [] => true
  | k :: ks, f :: fs => k.accepts f && fieldsWellFormed ks fs
  | [], _ :: _ => false
  | _ :: _, [] => false

/-- The operand kinds of an instruction (the column "fields" of R75 of 30_encoding.md). -/
def Instr.kinds : Instr → List OperandKind
  | .hlt | .ret | .iret | .nop => []
  | .prn _ | .pra _ | .not _ | .inc _ | .dec _ | .push _ | .pop _ | .call _ | .jmp _ | .jeq _ | .jne _ => [.R]
  | .jgt _ | .jge _ | .jle _ | .int _ => [.U]
  | .ldi _ _ | .addi _ _ => [.R, .I]
  | .st _ _ => [.M, .R]
  | .ld _ _ | .add _ _ | .sub _ _ | .mul _ _ | .div _ _ | .mod _ _ | .and _ _ | .or _ _ | .xor _ _
  | .shl _ _ | .shr _ _ | .cmp _ _ => [.R, .R]

/-- The encoding width of an instruction: 1 for no operand, 2 for one, 3 for two
(R70 of 30_encoding.md). -/
def Instr.width (i : Instr) : Nat := 1 + i.kinds.length

end Sys2Proof
end

