-- ==== Sys2Proof/Decode.lean ====
section
/-! DEFINITION. The opcode map, the decoder (total on any bytes, rejecting by name) and, after it, the
encoder.

Decoder and encoder take the opcode map as an argument (R7 of 00_scope.md). The map of this machine, `opcodeMap`, has
the default bytes of R75 of 30_encoding.md (PRESUMED, log entry 1: the document gives none, the spec takes them from
general knowledge) and a free value for `OPC_ADDI` (log entry 2). -/

namespace Sys2Proof

/-- What the dispatch table holds for an opcode: the kinds of its operand fields and the instruction it
makes of them (R31 of 10_state.md, R71 and R75 of 30_encoding.md). -/
inductive Format where
  /-- F0: no operand. -/
  | f0 (i : Instr)
  /-- F1, a register. -/
  | f1R (mk : Reg → Instr)
  /-- F1, an unused byte. -/
  | f1U (mk : Byte → Instr)
  /-- F2, two registers. -/
  | f2RR (mk : Reg → Reg → Instr)
  /-- F2, a register and an immediate. -/
  | f2RI (mk : Reg → Byte → Instr)
  /-- F2, a memory address and a register. -/
  | f2MR (mk : Byte → Reg → Instr)

/-- The operand kinds of a format, in field order. -/
def Format.kinds : Format → List OperandKind
  | .f0 _ => []
  | .f1R _ => [.R]
  | .f1U _ => [.U]
  | .f2RR _ => [.R, .R]
  | .f2RI _ => [.R, .I]
  | .f2MR _ => [.M, .R]

/-- The encoding width of a format (R70 of 30_encoding.md). -/
def Format.width (f : Format) : Nat := 1 + f.kinds.length

/-- The entries of data movement and output (R75 of 30_encoding.md). -/
def OpcodeMap.dataEntries (m : OpcodeMap) : List (Byte × Format) :=
  [ (m.ldi, .f2RI .ldi), (m.ld, .f2RR .ld), (m.st, .f2MR .st), (m.prn, .f1R .prn), (m.pra, .f1R .pra) ]

/-- The entries of the ALU and of register arithmetic, but for ADDI (R75 of 30_encoding.md). -/
def OpcodeMap.aluEntries (m : OpcodeMap) : List (Byte × Format) :=
  [ (m.add, .f2RR .add), (m.sub, .f2RR .sub), (m.mul, .f2RR .mul), (m.div, .f2RR .div),
    (m.mod, .f2RR .mod), (m.and, .f2RR .and), (m.or, .f2RR .or), (m.xor, .f2RR .xor), (m.shl, .f2RR .shl),
    (m.shr, .f2RR .shr), (m.not, .f1R .not), (m.inc, .f1R .inc), (m.dec, .f1R .dec), (m.cmp, .f2RR .cmp) ]

/-- The entries of the stack and of subroutines (R75 of 30_encoding.md). -/
def OpcodeMap.stackEntries (m : OpcodeMap) : List (Byte × Format) :=
  [ (m.push, .f1R .push), (m.pop, .f1R .pop), (m.call, .f1R .call), (m.ret, .f0 .ret) ]

/-- The entries of jumps and system instructions (R75 of 30_encoding.md). -/
def OpcodeMap.controlEntries (m : OpcodeMap) : List (Byte × Format) :=
  [ (m.jmp, .f1R .jmp), (m.jeq, .f1R .jeq), (m.jne, .f1R .jne), (m.jgt, .f1U .jgt), (m.jge, .f1U .jge),
    (m.jle, .f1U .jle), (m.hlt, .f0 .hlt), (m.int, .f1U .int), (m.iret, .f0 .iret), (m.nop, .f0 .nop) ]

/-- The entries of the 33 opcodes other than ADDI. -/
def OpcodeMap.fixedEntries (m : OpcodeMap) : List (Byte × Format) :=
  m.dataEntries ++ m.aluEntries ++ m.stackEntries ++ m.controlEntries

/-- The dispatch table: a fixed map from opcode byte to handler, one entry for each of the 34 opcodes
(R31 of 10_state.md, R75 of 30_encoding.md). -/
def OpcodeMap.dispatchTable (m : OpcodeMap) : List (Byte × Format) := m.fixedEntries ++ [(m.addi, .f2RI .addi)]

/-- What a map must satisfy: no byte stands for two opcodes (R75, R79 of 30_encoding.md). -/
abbrev OpcodeMap.Distinct (m : OpcodeMap) : Prop := (m.dispatchTable.map Prod.fst).Nodup

/-- The default `opcode_map` (R75 of 30_encoding.md; PRESUMED, log entry 1), for a value of `OPC_ADDI`. -/
def defaultOpcodes (addi : Byte) : OpcodeMap where
  hlt := 0x01
  ldi := 0x82
  ld := 0x83
  st := 0x84
  prn := 0x47
  pra := 0x48
  add := 0xA0
  sub := 0xA1
  mul := 0xA2
  div := 0xA3
  mod := 0xA4
  and := 0xA8
  or := 0xAA
  xor := 0xAB
  shl := 0xAC
  shr := 0xAD
  not := 0x69
  addi := addi
  inc := 0x65
  dec := 0x66
  push := 0x45
  pop := 0x46
  call := 0x50
  ret := 0x11
  cmp := 0xA7
  jmp := 0x54
  jeq := 0x55
  jne := 0x56
  jgt := 0x57
  jge := 0x5A
  jle := 0x59
  int := 0x52
  iret := 0x13
  nop := 0x00

/-- The bytes that none of the 33 other opcodes uses, in rising order: the candidates for `OPC_ADDI`. -/
def freeOpcodes : List Byte :=
  ((List.range 256).map (BitVec.ofNat 8)).filter fun b => (defaultOpcodes b).fixedEntries.all fun e => e.1 != b

/-- `OPC_ADDI` (R79 of 30_encoding.md): a byte value that differs from every other opcode of the map, and
nothing more is known of it (log entry 2). The index is always in range: `freeOpcodes_length`, Laws/Decode. -/
def opcAddi : Byte := freeOpcodes.getD Config.opcAddiIndex.val 0

/-- The opcode map this machine is built with. Another map is put here, and everything else follows it. -/
def opcodeMap : OpcodeMap := defaultOpcodes opcAddi

/-- The lookup of the whole opcode byte (R77 of 30_encoding.md); `none` for an unknown opcode. -/
def OpcodeMap.lookup (m : OpcodeMap) (op : Byte) : Option Format :=
  (m.dispatchTable.find? fun e => e.1 == op).map Prod.snd

/-- The width that an opcode byte alone decides (R77 of 30_encoding.md); 1 for an unknown opcode, of which
nothing but the opcode byte is fetched. -/
def OpcodeMap.widthOf (m : OpcodeMap) (op : Byte) : Nat := ((m.lookup op).map Format.width).getD 1

/-- A register-index field: it must be 0..7 and is not masked (R73 of 30_encoding.md). -/
def regField (field : Byte) : Option Reg :=
  if h : field.toNat < 8 then some ⟨field.toNat, h⟩ else none

/-- What the decoder reads from a list of bytes. -/
inductive Decoded where
  /-- An instruction, and the bytes after it. -/
  | ok (i : Instr) (rest : List Byte)
  /-- There is no byte. -/
  | noOpcode
  /-- The byte is not in the dispatch table (R78 of 30_encoding.md). -/
  | unknownOpcode (op : Byte)
  /-- The list ends before the last operand byte (R104 of 40_execution_loop.md). -/
  | truncated
  /-- A field of kind R is 8 or more: the first such field (R105 of 40_execution_loop.md). -/
  | badRegister (field : Byte)
deriving DecidableEq, Repr

/-- Decoding the operand bytes of a known opcode: presence of the bytes first, then the register fields,
`a` before `b` (R104, R105 of 40_execution_loop.md, R245 of 60_exceptions.md). -/
def Format.decodeFields : Format → List Byte → Decoded
  | .f0 i, rest => .ok i rest
  | .f1R _, [] => .truncated
  | .f1R mk, a :: rest =>
    match regField a with
    | none => .badRegister a
    | some ra => .ok (mk ra) rest
  | .f1U _, [] => .truncated
  | .f1U mk, a :: rest => .ok (mk a) rest
  | .f2RR _, [] => .truncated
  | .f2RR _, [_] => .truncated
  | .f2RR mk, a :: b :: rest =>
    match regField a with
    | none => .badRegister a
    | some ra =>
      match regField b with
      | none => .badRegister b
      | some rb => .ok (mk ra rb) rest
  | .f2RI _, [] => .truncated
  | .f2RI _, [_] => .truncated
  | .f2RI mk, a :: b :: rest =>
    match regField a with
    | none => .badRegister a
    | some ra => .ok (mk ra b) rest
  | .f2MR _, [] => .truncated
  | .f2MR _, [_] => .truncated
  | .f2MR mk, a :: b :: rest =>
    match regField b with
    | none => .badRegister b
    | some rb => .ok (mk a rb) rest

/-- The decoder: the opcode byte selects the format, the operand bytes follow at increasing addresses
(R70, R71, R77 of 30_encoding.md). -/
def OpcodeMap.decode (m : OpcodeMap) : List Byte → Decoded
  | [] => .noOpcode
  | op :: rest =>
    match m.lookup op with
    | none => .unknownOpcode op
    | some f => f.decodeFields rest

/-- A register index as the whole byte of its field. -/
def regByte (r : Reg) : Byte := BitVec.ofNat 8 r.val

/-- The bytes of an instruction, opcode first (R71 and R75 of 30_encoding.md). -/
def OpcodeMap.encode (m : OpcodeMap) : Instr → List Byte
  | .hlt => [m.hlt]
  | .ldi a b => [m.ldi, regByte a, b]
  | .ld a b => [m.ld, regByte a, regByte b]
  | .st a b => [m.st, a, regByte b]
  | .prn a => [m.prn, regByte a]
  | .pra a => [m.pra, regByte a]
  | .add a b => [m.add, regByte a, regByte b]
  | .sub a b => [m.sub, regByte a, regByte b]
  | .mul a b => [m.mul, regByte a, regByte b]
  | .div a b => [m.div, regByte a, regByte b]
  | .mod a b => [m.mod, regByte a, regByte b]
  | .and a b => [m.and, regByte a, regByte b]
  | .or a b => [m.or, regByte a, regByte b]
  | .xor a b => [m.xor, regByte a, regByte b]
  | .shl a b => [m.shl, regByte a, regByte b]
  | .shr a b => [m.shr, regByte a, regByte b]
  | .not a => [m.not, regByte a]
  | .addi a b => [m.addi, regByte a, b]
  | .inc a => [m.inc, regByte a]
  | .dec a => [m.dec, regByte a]
  | .push a => [m.push, regByte a]
  | .pop a => [m.pop, regByte a]
  | .call a => [m.call, regByte a]
  | .ret => [m.ret]
  | .cmp a b => [m.cmp, regByte a, regByte b]
  | .jmp a => [m.jmp, regByte a]
  | .jeq a => [m.jeq, regByte a]
  | .jne a => [m.jne, regByte a]
  | .jgt a => [m.jgt, a]
  | .jge a => [m.jge, a]
  | .jle a => [m.jle, a]
  | .int a => [m.int, a]
  | .iret => [m.iret]
  | .nop => [m.nop]

/-- The opcode byte of an instruction. -/
def OpcodeMap.opcodeOf (m : OpcodeMap) (i : Instr) : Byte := (m.encode i).headD 0

/-- The operand bytes of an instruction. -/
def OpcodeMap.operandsOf (m : OpcodeMap) (i : Instr) : List Byte := (m.encode i).tail

/-- The three bytes of a table word: bit 0 is the least significant bit of the FIRST byte, the next
byte's bits count on from it, and every bit from `nbits` up is 0. -/
def tableBytes (nbits w : Nat) : List Byte :=
  let v := w % 2 ^ nbits
  [BitVec.ofNat 8 v, BitVec.ofNat 8 (v / 2 ^ 8), BitVec.ofNat 8 (v / 2 ^ 16)]

/-- The instruction the decoder reads from a table word. -/
def decodeTableWord (nbits w : Nat) : Option Instr :=
  match opcodeMap.decode (tableBytes nbits w) with
  | .ok i _ => some i
  | .noOpcode => none
  | .unknownOpcode _ => none
  | .truncated => none
  | .badRegister _ => none

end Sys2Proof
end

