-- ==== Sys2Proof/Machine/State.lean ====
section
/-! DEFINITION. The state of the machine: everything R20 of 10_state.md lists, and the two fields that carry
the tick draws. State at construction is `State.reset` (R270 of 70_reset_and_hazards.md). -/

namespace Sys2Proof.Machine

/-- Why the run stopped (R33 of 10_state.md; the codes are `HaltCause.code`, R242 of 60_exceptions.md). -/
inductive HaltCause where
  /-- 0: not stopped. -/
  | none
  /-- 1: HLT, the normal end. -/
  | hlt
  /-- 2: POP with `SP ≥ 244`. -/
  | stackUnderflow
  /-- 3: DIV or MOD with a zero divisor. -/
  | divByZero
  /-- 4: an unknown opcode, or an opcode fetch at `pc ≥ 256`. -/
  | unknownOpcode
  /-- 5: an operand byte at an address ≥ 256. -/
  | operandFault
  /-- 6: a register field ≥ 8. -/
  | badRegister
  /-- 7: an ALU operation the ALU does not have; unreachable (R107 of 40_execution_loop.md). -/
  | internal
deriving DecidableEq, Repr

/-- The diagnostics that are reported (R243 of 60_exceptions.md; the codes are `DiagCode.code`). -/
inductive DiagCode where
  | stackUnderflow
  | divByZero
  | unknownOpcode
  | operandFault
  | badRegister
  | internal
  | addrError
  | tick
deriving DecidableEq, Repr

/-- The two kinds of output (R114 of 40_execution_loop.md). -/
inductive OutKind where
  | prn
  | pra
deriving DecidableEq, Repr

/-- An event of the trace (R114 of 40_execution_loop.md). -/
inductive Event where
  /-- `Out(kind, v)`. -/
  | out (kind : OutKind) (v : Byte)
  /-- `Diag(code, info)`; the info `none` is NoValue (R242 of 60_exceptions.md). -/
  | diag (code : DiagCode) (info : Option Nat)
deriving DecidableEq, Repr

/-- Memory as (address, byte) pairs in canonical form (`Memory.wf`). -/
abbrev Memory := List Host.Cell

/-- What an address that is not listed reads as: memory is zero-filled at construction
(R35 of 10_state.md). -/
def Memory.unlisted : Byte := 0

/-- The canonical form: addresses strictly rising and inside the address space, no entry equal to what an
unlisted address reads as. Equal memories are then equal lists. -/
abbrev Memory.wf (m : Memory) : Prop :=
  m.Pairwise (fun c d => c.1 < d.1) ∧ ∀ c ∈ m, c.1 < Config.memSize ∧ c.2 ≠ Memory.unlisted

/-- The state of the core (R20 of 10_state.md) and the draws of its free input. -/
structure State where
  /-- `x[0]` to `x[7]`; `x[7]` is SP, `x[6]` is the tick register (R21 to R23 of 10_state.md). -/
  regs : Vector Byte 8
  /-- The program counter, a natural number that does not wrap (R26, R27 of 10_state.md). -/
  pc : Nat
  /-- FL: bit 0 is E, bit 1 is G, bit 2 is L (R29 of 10_state.md). -/
  fl : Byte
  /-- The state of the loop: `true` is Halted (R32 of 10_state.md). -/
  halted : Bool
  /-- `halt_cause` (R33 of 10_state.md). -/
  haltCause : HaltCause
  /-- `mem[0..255]` (R35 of 10_state.md). -/
  mem : Memory
  /-- The output and diagnostic events, oldest first (R34 of 10_state.md). -/
  trace : List Event
  /-- MODEL'S OWN (log entry 3): tick draws already laid down for the coming steps. -/
  ticks : List Bool
  /-- MODEL'S OWN (log entry 3): how many draws have been taken, the argument of `Config.tickDraw`. -/
  tickNo : Nat
deriving DecidableEq, Repr

/-- Why the machine has no next state. -/
inductive Fault where
  /-- A step of a core that is Halted after its run: "In the Halted state the core has **no step**"
  (R100 of 40_execution_loop.md). Raised by `step`. Safe: nothing is claimed of what follows a run. -/
  | halted
deriving DecidableEq, Repr

/-- What the model gives no meaning. -/
inductive Refusal where
  /-- An instruction whose arm has no meaning yet; no arm of this model is refused. Safe. -/
  | notModelled (mnemonic : String)
  /-- A second `run` after Halted, which the spec does not define (R273 of 70_reset_and_hazards.md, I16 of
  93_implementation_defined.md: "`refuse`: not modelled"). Raised by `hostRun`, never by a step. Safe. -/
  | secondRun
  /-- A `run` call while Running, which "cannot occur" (R273 of 70_reset_and_hazards.md). Raised by
  `hostRun`, never by a step. Safe. -/
  | runWhileRunning
  /-- A `load_write` after the run: it is allowed "after construct, before run" only (R274 of
  70_reset_and_hazards.md). Raised by `hostLoadWrite`, never by a step. Safe. -/
  | loadAfterRun
  /-- A `load_write` while Running: the host has "no way to act while the core is Running" (R274 of
  70_reset_and_hazards.md). Raised by `hostLoadWrite`, never by a step. Safe. -/
  | loadWhileRunning
deriving DecidableEq, Repr

/-- The state after `construct()` (R270 of 70_reset_and_hazards.md, R37 of 10_state.md): "zero-initialized
CPU in Halted state". Every value is the spec's but for `ticks` and `tickNo` (DESIGN CHOICE, log
entry 3). -/
def State.reset : State where
  regs := Vector.replicate 8 0
  pc := Config.pcInit
  fl := 0
  halted := true
  haltCause := .none
  mem := []
  trace := []
  ticks := []
  tickNo := 0

end Sys2Proof.Machine
end

