-- ==== Sys2Proof/Machine/Ops.lean ====
section
/-! DEFINITION. The named operations over registers, memory, pc and trace; stopping the run, the one way an
error is taken; the start of a run.

There is no trap entry and no return from one on this hardware (R246, R248 of 60_exceptions.md): an error that
is not ignored goes through `State.raiseStop`, and IRET only advances pc. -/

namespace Sys2Proof.Machine

/-! ### Registers -/

/-- `SP` is another name for `x[7]` (R9 of 00_scope.md, R22 of 10_state.md). -/
def spReg : Reg := Fin.ofNat 8 Config.spReg

/-- The register the tick clears (R23 of 10_state.md). -/
def tickReg : Reg := Fin.ofNat 8 Config.tickReg

/-- The stack pointer at run start, and the threshold of the empty stack (R25 of 10_state.md, R191 of
43_stack_and_subroutine.md). -/
def spInit : Byte := BitVec.ofNat 8 Config.spInit

/-- `trunc8(v)`: `v mod 256`, the two's-complement low byte for `v < 0` (R8 of 00_scope.md). -/
def trunc8 (v : Int) : Byte := BitVec.ofInt 8 v

/-- `x[r]` (R9 of 00_scope.md). -/
def State.x (s : State) (r : Reg) : Byte := s.regs[r]

/-- `x[r] <- v` (R9 of 00_scope.md). No register is hardwired (R21 of 10_state.md). -/
def State.setReg (s : State) (r : Reg) (v : Byte) : State := { s with regs := s.regs.set r v }

/-- The stack pointer. -/
def State.sp (s : State) : Byte := s.x spReg

/-- `SP <- trunc8(SP - 1)` (R190, R192 of 43_stack_and_subroutine.md; modulo 256 is D3, log entry 6). -/
def State.decSp (s : State) : State := s.setReg spReg (trunc8 ((s.sp.toNat : Int) - 1))

/-- `SP <- trunc8(SP + 1)` (R191, R193 of 43_stack_and_subroutine.md; modulo 256 is D3, log entry 6). -/
def State.incSp (s : State) : State := s.setReg spReg (trunc8 ((s.sp.toNat : Int) + 1))

/-! ### Program counter -/

/-- `pc <- target` (R9 of 00_scope.md). -/
def State.setPc (s : State) (target : Nat) : State := { s with pc := target }

/-- `pc <- pc + w`, not masked (R108 of 40_execution_loop.md). -/
def State.advance (s : State) (w : Nat) : State := { s with pc := s.pc + w }

/-! ### Flags register -/

/-- `FL <- v`, the whole register (R167 of 42_alu.md). -/
def State.setFl (s : State) (v : Byte) : State := { s with fl := v }

/-! ### Trace -/

/-- Append an event to the trace (R9 of 00_scope.md, R34 of 10_state.md). -/
def State.emit (s : State) (e : Event) : State := { s with trace := s.trace ++ [e] }

/-- `emit Diag(code, info)` (R9 of 00_scope.md). -/
def State.emitDiag (s : State) (code : DiagCode) (info : Option Nat) : State := s.emit (.diag code info)

/-! ### Memory cells -/

/-- The byte at an address: the listed one, or what an unlisted address reads as. -/
def Memory.read : Memory → Nat → Byte
  | [], _ => Memory.unlisted
  | (k, v) :: m, a => if k = a then v else Memory.read m a

/-- Drop every entry for an address. -/
def Memory.erase (m : Memory) (a : Nat) : Memory := m.filter fun c => c.1 != a

/-- Put an entry before the first higher address. -/
def Memory.insert : Memory → Nat → Byte → Memory
  | [], a, v => [(a, v)]
  | (k, w) :: m, a, v => if a < k then (a, v) :: (k, w) :: m else (k, w) :: Memory.insert m a v

/-- Write one cell, keeping the canonical form. -/
def Memory.write (m : Memory) (a : Nat) (v : Byte) : Memory :=
  if v = Memory.unlisted then Memory.erase m a else Memory.insert (Memory.erase m a) a v

/-- The byte a state holds at an address of the space, `none` outside it: memory as an observer reads it,
without the diagnostic of `State.memRead`. -/
def State.peek (s : State) (a : Nat) : Option Byte :=
  if a < Config.memSize then some (s.mem.read a) else none

/-! ### The memory interface -/

/-- `MemRead(addr, 1)` (R51 of 20_memory.md): the value, or NoValue and Diag(ADDR_ERROR, addr). -/
def State.memRead (s : State) (addr : Nat) : Option Byte × State :=
  if addr < Config.memSize then (some (s.mem.read addr), s)
  else (none, s.emitDiag .addrError (some addr))

/-- `MemWrite(addr, 1, v)` (R52 of 20_memory.md). -/
def State.memWrite (s : State) (addr : Nat) (v : Byte) : State :=
  if addr < Config.memSize then { s with mem := s.mem.write addr v }
  else s.emitDiag .addrError (some addr)

/-- `MemRead` at an 8-bit data address, which is always in range (R54 of 20_memory.md), so that it has a value
and emits nothing: `memRead_byte`, Laws/Ops. -/
def State.loadByte (s : State) (a : Byte) : Byte := s.mem.read a.toNat

/-- `MemWrite` at an 8-bit data address (R54 of 20_memory.md). -/
def State.storeByte (s : State) (a : Byte) (v : Byte) : State := s.memWrite a.toNat v

/-! ### Stopping the run -/

/-- The code of a halt cause (R242 of 60_exceptions.md). -/
def HaltCause.code : HaltCause → BitVec 3
  | .none => 0
  | .hlt => 1
  | .stackUnderflow => 2
  | .divByZero => 3
  | .unknownOpcode => 4
  | .operandFault => 5
  | .badRegister => 6
  | .internal => 7

/-- The code of a diagnostic (R243 of 60_exceptions.md). -/
def DiagCode.code : DiagCode → Nat
  | .stackUnderflow => 2
  | .divByZero => 3
  | .unknownOpcode => 4
  | .operandFault => 5
  | .badRegister => 6
  | .internal => 7
  | .addrError => 8
  | .tick => 9

/-- `raise Stop(cause)`: exactly two writes, `halted <- 1` and `halt_cause <- cause` (R241 of
60_exceptions.md). -/
def State.raiseStop (s : State) (cause : HaltCause) : State := { s with halted := true, haltCause := cause }

/-- `emit Diag(code, info); raise Stop(cause)`: a fatal stop other than HLT emits its Diag immediately before
the stop (R243 of 60_exceptions.md). -/
def State.stopWith (s : State) (code : DiagCode) (info : Option Nat) (cause : HaltCause) : State :=
  (s.emitDiag code info).raiseStop cause

/-! ### The start of a run -/

/-- `run()` up to its loop (R271 of 70_reset_and_hazards.md): Running, `SP <- 244`, `halt_cause <- 0`. The tick
baseline it records is not modelled (R36 of 10_state.md). -/
def State.startRun (s : State) : State :=
  { s.setReg spReg spInit with halted := false, haltCause := .none }

end Sys2Proof.Machine
end

