-- ==== Sys2Proof/Machine/Flags.lean ====
section
/-! DEFINITION. The flags register: its bits and the one computation that writes it (R29, R30 of 10_state.md,
R167 of 42_alu.md). -/

namespace Sys2Proof.Machine

/-- `FL.E`, bit 0 (R9 of 00_scope.md). -/
def State.flagE (s : State) : Bool := s.fl.getLsbD Config.flagE

/-- `FL.G`, bit 1 (R9 of 00_scope.md). No instruction reads it. -/
def State.flagG (s : State) : Bool := s.fl.getLsbD Config.flagG

/-- `FL.L`, bit 2 (R9 of 00_scope.md). No instruction reads it. -/
def State.flagL (s : State) : Bool := s.fl.getLsbD Config.flagL

/-- The whole FL of a comparison, unsigned: 0x01 equal, 0x02 greater, 0x04 less (R167 of 42_alu.md). -/
def compareFlags (va vb : Byte) : Byte :=
  if va.toNat = vb.toNat then 1#8 <<< Config.flagE
  else if va.toNat > vb.toNat then 1#8 <<< Config.flagG
  else 1#8 <<< Config.flagL

end Sys2Proof.Machine
end

