-- ==== Sys2Proof/Machine/Operands.lean ====
section
/-! DEFINITION. The operand forms of the instructions: what a field of each kind stands for when a handler runs
(R72 of 30_encoding.md). -/

namespace Sys2Proof.Machine

/-- An operand of kind R read as a value: `x[field]`. -/
def State.regOperand (s : State) (r : Reg) : Byte := s.x r

/-- An operand of kind I: the unsigned byte itself, no extension, no scaling (R74 of 30_encoding.md). -/
def immOperand (b : Byte) : Byte := b

/-- The data address in a register, of LD (R131 of 41_data_movement.md). -/
def State.regAddress (s : State) (r : Reg) : Byte := s.x r

/-- The store address of ST: the byte found in memory at the operand byte, the literal double indirection
(R132 of 41_data_movement.md, R80 of 30_encoding.md; D11, log entry 9). -/
def State.indirectAddress (s : State) (a : Byte) : Byte := s.loadByte a

/-- The target of a register jump, as a value of pc (R109 of 40_execution_loop.md). -/
def State.jumpTarget (s : State) (r : Reg) : Nat := (s.x r).toNat

/-- The return address CALL pushes: `trunc8(pc + 2)` (R192 of 43_stack_and_subroutine.md; D24, log
entry 10). -/
def State.returnAddress (s : State) : Byte := trunc8 ((s.pc : Int) + 2)

end Sys2Proof.Machine
end

