-- ==== Sys2Proof/Machine/Alu.lean ====
section
/-! DEFINITION. The ALU (R150, R151 of 42_alu.md) and the meanings of the ALU instructions, of register
arithmetic outside the ALU, and of CMP (R152 to R167). -/

namespace Sys2Proof.Machine

/-- The operations of the ALU (R150 of 42_alu.md). -/
inductive AluOp where
  | add | sub | mul | div | mod | and | or | xor | not | shl | shr
deriving DecidableEq, Repr

/-- What the ALU answers: a result, a division by zero (R150 of 42_alu.md), or that it has no such operation,
which cannot occur (R107 of 40_execution_loop.md). -/
inductive AluResult where
  | value (r : Byte)
  | divZero
  | unsupported
deriving DecidableEq, Repr

/-- The operations the ALU has (R150 of 42_alu.md). With all eleven of them the INTERNAL stop of R107 of
40_execution_loop.md is unreachable (log entry 18): `aluTable_complete`, Laws/Alu. -/
def aluTable : List AluOp := [.add, .sub, .mul, .div, .mod, .and, .or, .xor, .not, .shl, .shr]

/-- The arithmetic of the ALU: each result exact, on unsigned values, then truncated (R151 of 42_alu.md; the
integer quotient of DIV is D4, log entry 7). -/
def aluCompute (op : AluOp) (va vb : Byte) : AluResult :=
  match op with
  | .add => .value (trunc8 ((va.toNat : Int) + vb.toNat))
  | .sub => .value (trunc8 ((va.toNat : Int) - vb.toNat))
  | .mul => .value (trunc8 ((va.toNat : Int) * vb.toNat))
  | .div => if vb = 0#8 then .divZero else .value (trunc8 ((va.toNat / vb.toNat : Nat) : Int))
  | .mod => if vb = 0#8 then .divZero else .value (trunc8 ((va.toNat % vb.toNat : Nat) : Int))
  | .and => .value (va &&& vb)
  | .or => .value (va ||| vb)
  | .xor => .value (va ^^^ vb)
  | .not => .value (trunc8 (255 - (va.toNat : Int)))
  | .shl => .value (trunc8 ((va.toNat <<< vb.toNat : Nat) : Int))
  | .shr => .value (trunc8 ((va.toNat >>> vb.toNat : Nat) : Int))

/-- `alu(op, va, vb)`: a pure function that reads and writes no state and no flag (R150 of 42_alu.md). -/
def alu (op : AluOp) (va vb : Byte) : AluResult :=
  if op ∈ aluTable then aluCompute op va vb else .unsupported

/-- What an ALU handler does with the answer: write it to `x[a]` and advance, or stop with everything else
unchanged (R152 of 42_alu.md, R107 of 40_execution_loop.md). `opcode` is the info of Diag(INTERNAL). -/
def State.aluFinish (s : State) (a : Reg) (width : Nat) (opcode : Byte) (t : AluResult) : State :=
  match t with
  | .value r => (s.setReg a r).advance width
  | .divZero => s.stopWith .divByZero (some s.pc) .divByZero
  | .unsupported => s.stopWith .internal (some opcode.toNat) .internal

/-- The shared handler of the two-register ALU instructions: both inputs are read before the write
(R152 of 42_alu.md). -/
def State.aluRR (s : State) (op : AluOp) (a b : Reg) (opcode : Byte) : State :=
  s.aluFinish a 3 opcode (alu op (s.regOperand a) (s.regOperand b))

/-- The handler of the one-register ALU instruction (R163 of 42_alu.md). -/
def State.aluR (s : State) (op : AluOp) (a : Reg) (opcode : Byte) : State :=
  s.aluFinish a 2 opcode (alu op (s.regOperand a) 0#8)

/-- ADD (R153 of 42_alu.md). -/
def execAdd (a b : Reg) (s : State) : Host.Outcome State Fault Refusal :=
  .next (s.aluRR .add a b (opcodeMap.opcodeOf (.add a b)))

/-- SUB (R154 of 42_alu.md). -/
def execSub (a b : Reg) (s : State) : Host.Outcome State Fault Refusal :=
  .next (s.aluRR .sub a b (opcodeMap.opcodeOf (.sub a b)))

/-- MUL (R155 of 42_alu.md). -/
def execMul (a b : Reg) (s : State) : Host.Outcome State Fault Refusal :=
  .next (s.aluRR .mul a b (opcodeMap.opcodeOf (.mul a b)))

/-- DIV (R156 of 42_alu.md). -/
def execDiv (a b : Reg) (s : State) : Host.Outcome State Fault Refusal :=
  .next (s.aluRR .div a b (opcodeMap.opcodeOf (.div a b)))

/-- MOD (R157 of 42_alu.md). -/
def execMod (a b : Reg) (s : State) : Host.Outcome State Fault Refusal :=
  .next (s.aluRR .mod a b (opcodeMap.opcodeOf (.mod a b)))

/-- AND (R158 of 42_alu.md). -/
def execAnd (a b : Reg) (s : State) : Host.Outcome State Fault Refusal :=
  .next (s.aluRR .and a b (opcodeMap.opcodeOf (.and a b)))

/-- OR (R159 of 42_alu.md). -/
def execOr (a b : Reg) (s : State) : Host.Outcome State Fault Refusal :=
  .next (s.aluRR .or a b (opcodeMap.opcodeOf (.or a b)))

/-- XOR (R160 of 42_alu.md). -/
def execXor (a b : Reg) (s : State) : Host.Outcome State Fault Refusal :=
  .next (s.aluRR .xor a b (opcodeMap.opcodeOf (.xor a b)))

/-- SHL (R161 of 42_alu.md). -/
def execShl (a b : Reg) (s : State) : Host.Outcome State Fault Refusal :=
  .next (s.aluRR .shl a b (opcodeMap.opcodeOf (.shl a b)))

/-- SHR (R162 of 42_alu.md). -/
def execShr (a b : Reg) (s : State) : Host.Outcome State Fault Refusal :=
  .next (s.aluRR .shr a b (opcodeMap.opcodeOf (.shr a b)))

/-- NOT (R163 of 42_alu.md). -/
def execNot (a : Reg) (s : State) : Host.Outcome State Fault Refusal :=
  .next (s.aluR .not a (opcodeMap.opcodeOf (.not a)))

/-- Register arithmetic outside the ALU: `x[a] <- trunc8(x[a] + d)`, then the advance (R164 to R166 of
42_alu.md; modulo 256 is D3, log entry 6). -/
def State.addToReg (s : State) (a : Reg) (d : Int) (width : Nat) : State :=
  (s.setReg a (trunc8 (((s.regOperand a).toNat : Int) + d))).advance width

/-- ADDI (R164 of 42_alu.md). -/
def execAddi (a : Reg) (b : Byte) (s : State) : Host.Outcome State Fault Refusal :=
  .next (s.addToReg a (immOperand b).toNat 3)

/-- INC (R165 of 42_alu.md). -/
def execInc (a : Reg) (s : State) : Host.Outcome State Fault Refusal := .next (s.addToReg a 1 2)

/-- DEC (R166 of 42_alu.md). -/
def execDec (a : Reg) (s : State) : Host.Outcome State Fault Refusal := .next (s.addToReg a (-1) 2)

/-- CMP (R167 of 42_alu.md). -/
def execCmp (a b : Reg) (s : State) : Host.Outcome State Fault Refusal :=
  .next ((s.setFl (compareFlags (s.regOperand a) (s.regOperand b))).advance 3)

end Sys2Proof.Machine
end

