-- ==== Sys2Proof/Machine/Control.lean ====
section
/-! DEFINITION. The meanings of jumps and system instructions (44_control_and_system.md). -/

namespace Sys2Proof.Machine

/-- Jump to the address in a register, or advance by 2 (R210 to R212 of 44_control_and_system.md). -/
def State.jumpIf (s : State) (taken : Bool) (a : Reg) : State :=
  if taken then s.setPc (s.jumpTarget a) else s.advance 2

/-- JMP (R210 of 44_control_and_system.md). -/
def execJmp (a : Reg) (s : State) : Host.Outcome State Fault Refusal := .next (s.jumpIf true a)

/-- JEQ (R211 of 44_control_and_system.md). -/
def execJeq (a : Reg) (s : State) : Host.Outcome State Fault Refusal := .next (s.jumpIf s.flagE a)

/-- JNE (R212 of 44_control_and_system.md). -/
def execJne (a : Reg) (s : State) : Host.Outcome State Fault Refusal := .next (s.jumpIf (!s.flagE) a)

/-- JGT: a stub that never jumps (R213 of 44_control_and_system.md). -/
def execJgt (_a : Byte) (s : State) : Host.Outcome State Fault Refusal := .next (s.advance 2)

/-- JGE: a stub that never jumps (R214 of 44_control_and_system.md). -/
def execJge (_a : Byte) (s : State) : Host.Outcome State Fault Refusal := .next (s.advance 2)

/-- JLE: a stub that never jumps (R215 of 44_control_and_system.md). -/
def execJle (_a : Byte) (s : State) : Host.Outcome State Fault Refusal := .next (s.advance 2)

/-- HLT: `raise Stop(HLT)`, no Diag, pc unchanged (R216 of 44_control_and_system.md; D8, log entry 13). -/
def execHlt (s : State) : Host.Outcome State Fault Refusal := .next (s.raiseStop .hlt)

/-- NOP (R217 of 44_control_and_system.md). -/
def execNop (s : State) : Host.Outcome State Fault Refusal := .next (s.advance 1)

/-- INT: no trap vector, no state saved (R218 of 44_control_and_system.md). -/
def execInt (_a : Byte) (s : State) : Host.Outcome State Fault Refusal := .next (s.advance 2)

/-- IRET: pops nothing, restores nothing (R219 of 44_control_and_system.md). -/
def execIret (s : State) : Host.Outcome State Fault Refusal := .next (s.advance 1)

end Sys2Proof.Machine
end

