-- ==== Sys2Proof/Machine/DataMovement.lean ====
section
/-! DEFINITION. The meanings of data movement and output: LDI, LD, ST, PRN, PRA (41_data_movement.md). -/

namespace Sys2Proof.Machine

/-- LDI (R130 of 41_data_movement.md). -/
def execLdi (a : Reg) (b : Byte) (s : State) : Host.Outcome State Fault Refusal :=
  .next ((s.setReg a (immOperand b)).advance 3)

/-- LD: the address is read before the write (R131 of 41_data_movement.md). -/
def execLd (a b : Reg) (s : State) : Host.Outcome State Fault Refusal :=
  .next ((s.setReg a (s.loadByte (s.regAddress b))).advance 3)

/-- ST (R132 of 41_data_movement.md). -/
def execSt (a : Byte) (b : Reg) (s : State) : Host.Outcome State Fault Refusal :=
  .next ((s.storeByte (s.indirectAddress a) (s.regOperand b)).advance 3)

/-- PRN (R133 of 41_data_movement.md). -/
def execPrn (a : Reg) (s : State) : Host.Outcome State Fault Refusal :=
  .next ((s.emit (.out .prn (s.regOperand a))).advance 2)

/-- PRA (R134 of 41_data_movement.md). -/
def execPra (a : Reg) (s : State) : Host.Outcome State Fault Refusal :=
  .next ((s.emit (.out .pra (s.regOperand a))).advance 2)

end Sys2Proof.Machine
end

