-- ==== Sys2Proof/Machine/Stack.lean ====
section
/-! DEFINITION. The meanings of PUSH, POP, CALL and RET (43_stack_and_subroutine.md). Statements run in the order
written, so an instruction that names R7 sees the SP it has just moved (R10 of 00_scope.md; D13, log
entry 8). -/

namespace Sys2Proof.Machine

/-- Write a byte at the stack pointer (R190, R192 of 43_stack_and_subroutine.md). -/
def State.storeAtSp (s : State) (v : Byte) : State := s.storeByte s.sp v

/-- PUSH (R190 of 43_stack_and_subroutine.md): the register is read after SP has moved. -/
def execPush (a : Reg) (s : State) : Host.Outcome State Fault Refusal :=
  .next ((s.decSp.storeAtSp (s.decSp.regOperand a)).advance 2)

/-- POP (R191 of 43_stack_and_subroutine.md): the increment applies to the loaded value when `a` is R7. -/
def execPop (a : Reg) (s : State) : Host.Outcome State Fault Refusal :=
  if s.sp.toNat ≥ spInit.toNat then
    .next (s.stopWith .stackUnderflow (some s.sp.toNat) .stackUnderflow)
  else
    .next ((s.setReg a (s.loadByte s.sp)).incSp.advance 2)

/-- CALL (R192 of 43_stack_and_subroutine.md): the target is read after the push. -/
def execCall (a : Reg) (s : State) : Host.Outcome State Fault Refusal :=
  let pushed := s.decSp.storeAtSp s.returnAddress
  .next (pushed.setPc (pushed.jumpTarget a))

/-- RET (R193 of 43_stack_and_subroutine.md): no underflow check (D12, log entry 12). -/
def execRet (s : State) : Host.Outcome State Fault Refusal :=
  .next (s.setPc (s.loadByte s.sp).toNat).incSp

end Sys2Proof.Machine
end

