-- ==== Sys2Proof/Machine/Fetch.lean ====
section
/-! DEFINITION. What one iteration of the execution loop does before a handler runs: the tick, the fetch, the
decode and its checks (R101 to R105, R112 of 40_execution_loop.md). `Machine/Step.lean` only calls it. -/

namespace Sys2Proof.Machine

/-! ### The tick -/

/-- The free input `tick` of the coming step (R101, R112 of 40_execution_loop.md): the draw laid down for it, or
else the free value `Config.tickDraw` (log entry 3). -/
def State.tickDraw (s : State) : Bool :=
  match s.ticks with
  | [] => Config.tickDraw s.tickNo
  | d :: _ => d

/-- The start of a step: if the tick fires, `x[6] <- 0; emit Diag(TICK, 0)` and nothing else (R112 of
40_execution_loop.md). One draw is used up. It is written field by field, so that an undetermined draw leaves
every other field of the state determined. -/
def State.beginStep (s : State) : State :=
  { s with
    regs := s.regs.set tickReg (if s.tickDraw then 0#8 else s.x tickReg)
    trace := if s.tickDraw then s.trace ++ [.diag .tick (some 0)] else s.trace
    ticks := s.ticks.tail
    tickNo := s.tickNo + 1 }

/-! ### Fetch -/

/-- Fetch `n` operand bytes in address order, ending at the first that has no value (R104 of
40_execution_loop.md). -/
def State.fetchOperands (s : State) : Nat → Nat → List Byte × State
  | 0, _ => ([], s)
  | n + 1, addr =>
    match s.memRead addr with
    | (none, t) => ([], t)
    | (some v, t) =>
      let (vs, u) := t.fetchOperands n (addr + 1)
      (v :: vs, u)

/-- Fetch the opcode byte at pc and then the `width − 1` operand bytes it asks for, whether or not the handler
uses them (R102, R104 of 40_execution_loop.md, R77 of 30_encoding.md). -/
def State.fetchBytes (m : OpcodeMap) (s : State) : List Byte × State :=
  match s.memRead s.pc with
  | (none, t) => ([], t)
  | (some op, t) =>
    let (vs, u) := t.fetchOperands (m.widthOf op - 1) (s.pc + 1)
    (op :: vs, u)

/-! ### Decode and its stops -/

/-- What a step comes to. -/
inductive Action where
  /-- The constructed core is started by the host's `run()` (R271 of 70_reset_and_hazards.md). -/
  | launch (t : State)
  /-- The core is Halted after its run: no step (R100 of 40_execution_loop.md). -/
  | ended
  /-- The run stops before a handler runs (R102 to R105 of 40_execution_loop.md). -/
  | stopped (t : State)
  /-- The handler of `i` runs in the state `t` (R106 of 40_execution_loop.md). -/
  | run (i : Instr) (t : State)

/-- Fetch and decode, in the order of R101 of 40_execution_loop.md and R245 of 60_exceptions.md: opcode, operand
bytes, register fields. The infos of the diagnostics are those of R242 and R243 of 60_exceptions.md. -/
def State.fetchDecode (m : OpcodeMap) (s : State) : Action :=
  let (bytes, t) := s.fetchBytes m
  match m.decode bytes with
  | .ok i _ => .run i t
  | .noOpcode => .stopped (t.stopWith .unknownOpcode none .unknownOpcode)
  | .unknownOpcode op => .stopped (t.stopWith .unknownOpcode (some op.toNat) .unknownOpcode)
  | .truncated => .stopped (t.stopWith .operandFault (some t.pc) .operandFault)
  | .badRegister field => .stopped (t.stopWith .badRegister (some field.toNat) .badRegister)

/-- What the next step comes to: an iteration of the loop while Running; while Halted, the host's `run()` of a
core that has been constructed and not yet run (`halt_cause` NONE), and nothing after the run (R100, R101 of
40_execution_loop.md; log entries 4 and 5). -/
def State.nextAction (m : OpcodeMap) (s : State) : Action :=
  if s.halted then
    if s.haltCause = .none then .launch s.startRun else .ended
  else s.beginStep.fetchDecode m

/-! ### Placing an instruction where it is fetched next -/

/-- Store bytes at rising addresses from `addr`. -/
def State.placeBytes (s : State) : Nat → List Byte → State
  | _, [] => s
  | addr, v :: vs => (s.memWrite addr v).placeBytes (addr + 1) vs

/-- A state in which a step fetches: a Halted core is started as `run()` starts it, and a pc that has no room
for the longest instruction before the end of memory is set to 0 (log entry 4). -/
def State.readyToFetch (s : State) : State :=
  let t := if s.halted then s.startRun else s
  if t.pc + 3 ≤ Config.memSize then t else t.setPc Config.pcInit

end Sys2Proof.Machine
end

