-- ==== Sys2Proof/Machine/HostOps.lean ====
section
/-! DEFINITION. The host's operations on the block (R274 of 70_reset_and_hazards.md), each with its "when".
`construct()` is `State.reset`. The host has no other path: none writes a register, pc or FL but `run`, which sets SP. -/

namespace Sys2Proof.Machine

/-! ### The memory-write path of the loader -/

/-- The raw memory-write path, with the bounds check of MemWrite (R65 of 20_memory.md). When the host may use it is
`hostLoadWrite`. -/
def State.loadWrite (s : State) (addr : Nat) (v : Byte) : State := s.memWrite addr v

/-- The bytes of an image written at addresses `addr`, `addr + 1`, ... in image order. -/
def State.loadFrom (s : State) : Nat → List Byte → State
  | _, [] => s
  | addr, v :: vs => (s.loadWrite addr v).loadFrom (addr + 1) vs

/-- The loader contract: image byte k sits at address k (R275 of 70_reset_and_hazards.md). -/
def State.loadImage (s : State) (image : List Byte) : State := s.loadFrom 0 image

/-! ### When the host may act -/

/-- Where a core stands in its one run (R273, R274 of 70_reset_and_hazards.md). -/
inductive RunPhase where
  /-- After construct, before run. -/
  | constructed
  /-- Running: the host cannot act. -/
  | running
  /-- After the run has ended. -/
  | ended
deriving DecidableEq, Repr

/-- The phase, from `halted` and `halt_cause` (R32, R33 of 10_state.md). -/
def State.phase (s : State) : RunPhase :=
  if s.halted then (if s.haltCause = .none then .constructed else .ended) else .running

/-- `load_write(addr, byte)`: "after construct, before run" (R274 of 70_reset_and_hazards.md). -/
def hostLoadWrite (addr : Nat) (v : Byte) (s : State) : Host.Outcome State Fault Refusal :=
  match s.phase with
  | .constructed => .next (s.loadWrite addr v)
  | .running => .refused .loadWhileRunning
  | .ended => .refused .loadAfterRun

/-- A loader's `load_write` calls, one for each byte from `addr` on. -/
def hostLoadFrom (s : State) : Nat → List Byte → Host.Outcome State Fault Refusal
  | _, [] => .next s
  | addr, v :: vs =>
    match hostLoadWrite addr v s with
    | .next t => hostLoadFrom t (addr + 1) vs
    | .fault f => .fault f
    | .refused r => .refused r

/-- `run()` up to its loop: "once, after loading" (R271, R274 of 70_reset_and_hazards.md). A second run and a run
while Running have no meaning (R273; log entry 5). -/
def hostRun (s : State) : Host.Outcome State Fault Refusal :=
  match s.phase with
  | .constructed => .next s.startRun
  | .running => .refused .runWhileRunning
  | .ended => .refused .secondRun

/-! ### What the host may read -/

/-- Read trace: "at any time" (R274 of 70_reset_and_hazards.md). -/
def hostReadTrace (s : State) : List Event := s.trace

/-- What the host reads after the run, beside the trace (R115 of 40_execution_loop.md). -/
structure FinalState where
  regs : Vector Byte 8
  pc : Nat
  fl : Byte
  haltCause : HaltCause
  mem : Memory
deriving DecidableEq, Repr

/-- Read state: "after Halted" (R274 of 70_reset_and_hazards.md), read as after the end of the run (R115 of
40_execution_loop.md; log entry 20). -/
def hostReadState (s : State) : Option FinalState :=
  match s.phase with
  | .ended => some { regs := s.regs, pc := s.pc, fl := s.fl, haltCause := s.haltCause, mem := s.mem }
  | .constructed => none
  | .running => none

end Sys2Proof.Machine
end

