-- ==== Sys2Proof/Machine/Step.lean ====
section
/-! DEFINITION. One step of the machine (R101 of 40_execution_loop.md), and where an instruction is placed so that
the next step runs it. -/

namespace Sys2Proof.Machine

/-- One step under an opcode map: the iteration of the loop while Running, the host's `run()` of a constructed core (log entry 4),
and no step after the run (R100, R101 of 40_execution_loop.md). -/
def stepWith (m : OpcodeMap) (s : State) : Host.Outcome State Fault Refusal :=
  match s.nextAction m with
  | .launch t => .next t
  | .ended => .fault .halted
  | .stopped t => .next t
  | .run i t => exec i t

/-- One step of the machine, under its own opcode map. -/
def step (s : State) : Host.Outcome State Fault Refusal := stepWith opcodeMap s

/-- The state in which the next step fetches and runs the instruction of a table word: its three bytes are stored
at pc of the Running core (log entry 4). -/
def State.withFetchWord (s : State) (nbits w : Nat) : State :=
  s.readyToFetch.placeBytes s.readyToFetch.pc (tableBytes nbits w)

end Sys2Proof.Machine
end

