-- ==== Sys2Proof/Machine/Bus.lean ====
section
/-! DEFINITION. The memory interface at transaction level: the requests a step issues, in order, computed from
the state before the step (R53, R64 of 20_memory.md; D14, log entry 17). They are no state (R20 of 10_state.md); that they account
for what the step does to memory is a statement. -/

namespace Sys2Proof.Machine

/-- One request and its answer: the signals of R64 of 20_memory.md. `wdata` is `none` for a read, `rdata` is
`none` for a write and for a read without a value. -/
structure MemRequest where
  /-- `mem_we`: true is a write. -/
  we : Bool
  /-- `mem_addr`, 9 bits on this hardware: 0..258. -/
  addr : Nat
  /-- `mem_wdata`. -/
  wdata : Option Byte
  /-- `mem_rdata`. -/
  rdata : Option Byte
  /-- `mem_err`: the address is out of range. -/
  err : Bool
deriving DecidableEq, Repr

/-- A read request in a state. -/
def readRequest (s : State) (addr : Nat) : MemRequest :=
  { we := false, addr := addr, wdata := none, rdata := s.peek addr, err := decide (Config.memSize ≤ addr) }

/-- A write request. -/
def writeRequest (addr : Nat) (v : Byte) : MemRequest :=
  { we := true, addr := addr, wdata := some v, rdata := none, err := decide (Config.memSize ≤ addr) }

/-- The reads of the operand fetch, ending with the first that has no value (R104 of 40_execution_loop.md). -/
def operandRequests (s : State) : Nat → Nat → List MemRequest
  | 0, _ => []
  | n + 1, addr =>
    readRequest s addr :: (if addr < Config.memSize then operandRequests s n (addr + 1) else [])

/-- The reads of the fetch: the opcode, then as many operand bytes as the width needs (R53 of 20_memory.md). -/
def fetchRequests (m : OpcodeMap) (s : State) : List MemRequest :=
  readRequest s s.pc ::
    match s.peek s.pc with
    | none => []
    | some op => operandRequests s (m.widthOf op - 1) (s.pc + 1)

/-- The data accesses of an instruction (the table of R53 of 20_memory.md): LD, ST, PUSH, CALL, POP and RET; no
other instruction touches memory. -/
def dataRequests (i : Instr) (s : State) : List MemRequest :=
  match i with
  | .ld _ b => [readRequest s (s.regAddress b).toNat]
  | .st a b => [readRequest s a.toNat, writeRequest (s.indirectAddress a).toNat (s.regOperand b)]
  | .push a => [writeRequest s.decSp.sp.toNat (s.decSp.regOperand a)]
  | .call _ => [writeRequest s.decSp.sp.toNat s.returnAddress]
  | .pop _ => if s.sp.toNat ≥ spInit.toNat then [] else [readRequest s s.sp.toNat]
  | .ret => [readRequest s s.sp.toNat]
  | .hlt | .ldi _ _ | .prn _ | .pra _ | .add _ _ | .sub _ _ | .mul _ _ | .div _ _ | .mod _ _ | .and _ _
  | .or _ _ | .xor _ _ | .shl _ _ | .shr _ _ | .not _ | .addi _ _ | .inc _ | .dec _ | .cmp _ _ | .jmp _
  | .jeq _ | .jne _ | .jgt _ | .jge _ | .jle _ | .int _ | .iret | .nop => []

/-- The requests of the next step, in order: the fetch reads, then the data accesses of the handler that runs. -/
def State.stepRequests (m : OpcodeMap) (s : State) : List MemRequest :=
  match s.nextAction m with
  | .run i t => fetchRequests m s ++ dataRequests i t
  | .stopped _ => fetchRequests m s
  | .launch _ => []
  | .ended => []

/-- Memory after a request. -/
def MemRequest.apply (m : Memory) (q : MemRequest) : Memory :=
  match q.wdata with
  | none => m
  | some v => if q.addr < Config.memSize then m.write q.addr v else m

end Sys2Proof.Machine
end

