-- ==== Sys2Proof/Safety.lean ====
section
/-! DEFINITION. The terms claims use: what a state must satisfy, what a run may assume at its launch, and what two
states may differ in. -/

namespace Sys2Proof.Machine

/-! ### What every state of a run satisfies -/

/-- FL holds 0 (before the first CMP) or exactly one of E, G and L (R29, R30 of 10_state.md). -/
def State.flagsLegal (s : State) : Prop := s.fl = 0#8 ∨ s.fl = 1#8 ∨ s.fl = 2#8 ∨ s.fl = 4#8

/-- The invariant of the machine: memory in canonical form; `pc` in 0..258 (R27 of 10_state.md); FL legal
(R29, R30 of 10_state.md); `halt_cause` NONE while Running (R33 of 10_state.md) and never INTERNAL (R107 of
40_execution_loop.md). -/
def State.Inv (s : State) : Prop :=
  s.mem.wf ∧ s.pc ≤ 258 ∧ s.flagsLegal ∧ (s.halted = false → s.haltCause = .none) ∧ s.haltCause ≠ .internal

/-! ### Launch premises (R281 of 70_reset_and_hazards.md) -/

/-- `Fresh`: the constructed state with a loaded image, and `run` just called; whatever the tick draws. -/
def State.Fresh (image : List Byte) (s : State) : Prop :=
  image.length ≤ Config.memSize ∧
    ∃ ticks tickNo, s = { (State.reset.loadImage image).startRun with ticks := ticks, tickNo := tickNo }

/-- The draw of the `n`-th coming step. -/
def State.drawAt (s : State) (n : Nat) : Bool := (s.ticks[n]?).getD (Config.tickDraw (s.tickNo + n))

/-- `NoTick`: every tick draw of the run is 0. -/
def State.NoTick (s : State) : Prop := ∀ n, s.drawAt n = false

/-- `CleanEnd`: the run has ended with `halt_cause = HLT`. -/
def State.CleanEnd (s : State) : Prop := s.halted = true ∧ s.haltCause = .hlt

/-- A safe outcome: the machine goes on to a next state, and has not stopped for one of the model faults
5, 6 and 7 (R242 of 60_exceptions.md). -/
def SafeOutcome (o : Host.Outcome State Fault Refusal) : Prop :=
  ∃ t, o = .next t ∧ t.haltCause ≠ .operandFault ∧ t.haltCause ≠ .badRegister ∧ t.haltCause ≠ .internal

/-! ### What two states agree on -/

/-- Every register outside the list is the same. -/
def SameRegsBut (changed : List Reg) (s t : State) : Prop := ∀ r, r ∉ changed → t.x r = s.x r

/-- Every byte of memory reads as before. -/
def SameMemory (s t : State) : Prop := ∀ a, t.peek a = s.peek a

/-- Every byte of memory outside one address reads as before. -/
def SameMemoryBut (addr : Nat) (s t : State) : Prop := ∀ a, a ≠ addr → t.peek a = s.peek a

/-- The loop goes on: `halted` and `halt_cause` are the same. -/
def SameRunState (s t : State) : Prop := t.halted = s.halted ∧ t.haltCause = s.haltCause

/-- The draws are the same: the model's own fields. -/
def SameDraws (s t : State) : Prop := t.ticks = s.ticks ∧ t.tickNo = s.tickNo

/-- FL, the trace, the run state and the draws are the same: the frame of an instruction that writes
none of them. -/
def SameRest (s t : State) : Prop :=
  t.fl = s.fl ∧ t.trace = s.trace ∧ SameRunState s t ∧ SameDraws s t

/-- The run has stopped, with these events appended and nothing else changed (R241 of 60_exceptions.md). -/
def StoppedWith (events : List Event) (cause : HaltCause) (s t : State) : Prop :=
  t.halted = true ∧ t.haltCause = cause ∧ t.trace = s.trace ++ events ∧
    SameRegsBut [] s t ∧ t.pc = s.pc ∧ t.fl = s.fl ∧ SameMemory s t ∧ SameDraws s t

/-- The instruction runs to a next state in which `x[a]` has this value and `pc` has advanced by this width, and
everything else is as before. -/
def WritesRegister (i : Instr) (a : Reg) (value width : Nat) (s : State) : Prop :=
  ∃ t, exec i s = .next t ∧ (t.x a).toNat = value ∧ t.pc = s.pc + width ∧
    SameRegsBut [a] s t ∧ SameMemory s t ∧ SameRest s t

/-- The instruction runs to a next state in which only `pc` can differ. -/
def MovesOnlyPc (i : Instr) (target : Nat) (s : State) : Prop :=
  ∃ t, exec i s = .next t ∧ t.pc = target ∧ SameRegsBut [] s t ∧ SameMemory s t ∧ SameRest s t

/-! ### Reading the trace and the bytes at pc -/

/-- The output events of a trace, without the diagnostics (R114 of 40_execution_loop.md). -/
def outputs (trace : List Event) : List (OutKind × Byte) :=
  trace.filterMap fun e => match e with
    | .out k v => some (k, v)
    | .diag _ _ => none

/-- How often a diagnostic stands in a trace. -/
def diagCount (code : DiagCode) (trace : List Event) : Nat :=
  trace.countP fun e => match e with
    | .out _ _ => false
    | .diag c _ => c == code

/-- These bytes lie in memory from pc on. -/
def BytesAtPc (bytes : List Byte) (s : State) : Prop :=
  ∀ k (h : k < bytes.length), s.peek (s.pc + k) = some bytes[k]

end Sys2Proof.Machine
end

