-- ==== Sys2Proof/Certificates/Slice0/Obligations.lean ====
section
/-! DEFINITION. The statements for the provers. Each docstring says which rule of spec/ the statement formalises,
or what it rests on; where it rests on a decision the spec marks as its own (D1 to D27 of 92_eei_decisions.md) or
on a choice of the model, it names the log entry.

A meaning's value is stated on numbers (`toNat`), its frame through `x` (a register), `peek` (a byte of memory,
`none` outside 0..255) and the fields of State. -/

open Sys2Proof Sys2Proof.Machine

/-! ### Construction, loading, launch -/

/-- R270: the constructed core. -/
def Obligations.ConstructionIsZeroedAndHalted : Prop :=
  (∀ r, State.reset.x r = 0#8) ∧ State.reset.pc = 0 ∧ State.reset.fl = 0#8 ∧
    (∀ a, a < 256 → State.reset.peek a = some 0#8) ∧ (∀ a, 256 ≤ a → State.reset.peek a = none) ∧
    State.reset.halted = true ∧ State.reset.haltCause = .none ∧ HaltCause.code .none = 0#3 ∧
    State.reset.trace = [] ∧ opcodeMap.dispatchTable.length = 34

/-- R271 of 70_reset_and_hazards.md, whose write of `halt_cause` is D9 (log entry 14): `run()` on a core that has been
constructed and not yet run; and that the machine's step of such a core is this call (MODEL'S CHOICE, log entry 4). -/
def Obligations.RunStartsAConstructedCore : Prop :=
  ∀ s : State, s.halted = true → s.haltCause = .none →
    ∃ t, hostRun s = .next t ∧ step s = .next t ∧
      t.halted = false ∧ (t.x spReg).toNat = 244 ∧ t.haltCause = .none ∧
      SameRegsBut [spReg] s t ∧ t.pc = s.pc ∧ t.fl = s.fl ∧ SameMemory s t ∧ t.trace = s.trace ∧ SameDraws s t

/-- When the host may act (R273 and R274 of 70_reset_and_hazards.md; D19 and D14, log entries 5 and 17): a constructed
core takes the loader's writes, one byte at a time and so a whole image; a Running core takes nothing, and only its trace
can be read; after its run the core has no step (R100), takes no write and no second run (the refusals are the MODEL'S
form, log entry 5), and its final state can be read (R115; log entry 20). That an image of more than 256 bytes is taken
too, byte by byte through the same bounds check, is the MODEL'S reading (log entry 11): the spec leaves such images outside
the block (I17). -/
def Obligations.NoStepAndNoSecondRunAfterARun : Prop :=
  (∀ s : State, s.halted = true → s.haltCause = .none →
    (∀ addr v, hostLoadWrite addr v s = .next (s.loadWrite addr v)) ∧
    (∀ image, hostLoadFrom s 0 image = .next (s.loadImage image)) ∧ hostReadState s = none) ∧
  (∀ s : State, s.halted = true → s.haltCause ≠ .none →
    step s = .fault .halted ∧ hostRun s = .refused .secondRun ∧
    (∀ addr v, hostLoadWrite addr v s = .refused .loadAfterRun) ∧
    hostReadState s = some { regs := s.regs, pc := s.pc, fl := s.fl, haltCause := s.haltCause, mem := s.mem }) ∧
  (∀ s : State, s.halted = false →
    hostRun s = .refused .runWhileRunning ∧ (∀ addr v, hostLoadWrite addr v s = .refused .loadWhileRunning) ∧
    hostReadState s = none) ∧
  (∀ s : State, hostReadTrace s = s.trace)

/-- R65: the loader's raw write path, inside and outside the address space. -/
def Obligations.LoadWriteIsBoundsChecked : Prop :=
  ∀ (s : State) (addr : Nat) (v : Byte),
    let t := s.loadWrite addr v
    (addr < 256 → t.peek addr = some v ∧ SameMemoryBut addr s t ∧ t.trace = s.trace) ∧
    (256 ≤ addr → SameMemory s t ∧ t.trace = s.trace ++ [.diag .addrError (some addr)]) ∧
    SameRegsBut [] s t ∧ t.pc = s.pc ∧ t.fl = s.fl ∧ SameRunState s t ∧ SameDraws s t

/-- R275: what memory holds before `run`, for every image of at most 256 bytes; nothing else has changed. -/
def Obligations.LoadedImageLiesAtZero : Prop :=
  ∀ image : List Byte, image.length ≤ 256 →
    let t := State.reset.loadImage image
    (∀ k (h : k < image.length), t.peek k = some image[k]) ∧
    (∀ a, image.length ≤ a → a < 256 → t.peek a = some 0#8) ∧
    SameRegsBut [] State.reset t ∧ t.pc = 0 ∧ SameRest State.reset t

/-! ### The memory interface -/

/-- 20_memory.md section 2 (R51): MemRead. That no data access of an instruction presents an address out of range, so that
only the fetch can, is the spec's own inference (R54, "[derived: ...]"), said here of `dataRequests`, the MODEL'S own computed
form of the accesses (D14, log entry 17). -/
def Obligations.MemReadReturnsTheByteOrReports : Prop :=
  ∀ (s : State) (addr : Nat), (∀ i, ∀ q ∈ dataRequests i s, q.addr < 256) ∧
    (addr < 256 → ∃ v, s.peek addr = some v ∧ s.memRead addr = (some v, s)) ∧
    (256 ≤ addr → ∃ t, s.memRead addr = (none, t) ∧ t.trace = s.trace ++ [.diag .addrError (some addr)] ∧
      SameRegsBut [] s t ∧ t.pc = s.pc ∧ t.fl = s.fl ∧ SameMemory s t ∧ SameRunState s t ∧ SameDraws s t)

/-- R52: MemWrite changes exactly the one cell, or only reports the address. -/
def Obligations.MemWriteChangesOneCellOrReports : Prop :=
  ∀ (s : State) (addr : Nat) (v : Byte),
    let t := s.memWrite addr v
    (addr < 256 → t.peek addr = some v ∧ SameMemoryBut addr s t ∧ t.trace = s.trace) ∧
    (256 ≤ addr → SameMemory s t ∧ t.trace = s.trace ++ [.diag .addrError (some addr)]) ∧
    SameRegsBut [] s t ∧ t.pc = s.pc ∧ t.fl = s.fl ∧ SameRunState s t ∧ SameDraws s t

/-- 20_memory.md section 5 (R60): after any sequence of writes a read returns the most recent write to its address, and
what was there before where there is none. -/
def Obligations.ReadsSeeTheMostRecentWrite : Prop :=
  ∀ (s : State) (writes : List (Nat × Byte)) (a : Nat), a < 256 →
    (writes.foldl (fun t w => t.memWrite w.1 w.2) s).peek a =
      match writes.reverse.find? (fun w => w.1 == a) with
      | some w => some w.2
      | none => s.peek a

/-! ### Encoding -/

/-- R31: one entry for each of the 34 opcodes and no other entry, for every opcode map without duplicates (the parameter
of R7); the machine's own map is one. That an instruction's entry has its operand kinds is R75's column "fields". -/
def Obligations.DispatchTableHasOneEntryPerOpcode : Prop :=
  opcodeMap.Distinct ∧ ∀ m : OpcodeMap, m.Distinct →
    m.dispatchTable.length = 34 ∧ (m.dispatchTable.map Prod.fst).Nodup ∧
    (∀ i, ∃ f, m.lookup (m.opcodeOf i) = some f ∧ f.kinds = i.kinds) ∧
    (∀ op f, m.lookup op = some f → ∃ i, m.opcodeOf i = op)

/-- R78, read with the default map of R75 (general knowledge, log entry 1) and any `OPC_ADDI` (log entry 2): 222 byte
values are unknown opcodes. -/
def Obligations.UnknownOpcodeBytesAre222 : Prop :=
  ((List.range 256).filter fun n => (opcodeMap.lookup (BitVec.ofNat 8 n)).isNone).length = 222

/-- R70: the width is 1, 2 or 3 and a function of the opcode byte alone, for every opcode map without duplicates. -/
def Obligations.WidthIsAFunctionOfTheOpcodeByte : Prop :=
  ∀ m : OpcodeMap, m.Distinct →
    (∀ i : Instr, (m.encode i).length = 1 + i.kinds.length ∧ i.kinds.length ≤ 2) ∧
    (∀ i j : Instr, m.opcodeOf i = m.opcodeOf j → (m.encode i).length = (m.encode j).length) ∧
    (∀ op rest i tail, m.decode (op :: rest) = .ok i tail → 1 + rest.length = m.widthOf op + tail.length)

/-- The decoder reads back what the encoder wrote: every instruction, every operand, whatever follows, for every opcode
map without duplicates and so for the machine's own. -/
def Obligations.DecodeOfEncodeIsTheInstruction : Prop :=
  opcodeMap.Distinct ∧ ∀ m : OpcodeMap, m.Distinct →
    ∀ (i : Instr) (rest : List Byte), m.decode (m.encode i ++ rest) = .ok i rest

/-- Each word has one meaning: bytes that decode to an instruction are its encoding, for every opcode map. -/
def Obligations.EncodeOfDecodeIsTheBytes : Prop :=
  ∀ (m : OpcodeMap) (bytes : List Byte) (i : Instr) (rest : List Byte),
    m.decode bytes = .ok i rest → bytes = m.encode i ++ rest

/-- Words of 95_test_vectors.md and of the encoding lines (general knowledge, log entry 1) decode to the instructions
they stand for; a register field of 8 is rejected as a bad register (D7, log entry 16), and an LDI without its last byte as
truncated (D6, log entry 15) although its register field is bad too (D25, log entry 16). -/
def Obligations.DecodesWordsOfTheSpec : Prop :=
  opcodeMap.decode [0x82, 0x03, 0xFF] = .ok (.ldi 3 255) [] ∧ opcodeMap.decode [0x84, 0xC8, 0x00] = .ok (.st 200 0) [] ∧
    opcodeMap.decode [0xA7, 0x02, 0x03] = .ok (.cmp 2 3) [] ∧ opcodeMap.decode [0x50, 0x07] = .ok (.call 7) [] ∧
    opcodeMap.decode [0x57, 0xC8] = .ok (.jgt 200) [] ∧ opcodeMap.decode [0x01] = .ok .hlt [] ∧
    opcodeMap.decode [0x47, 0x08] = .badRegister 8 ∧ opcodeMap.decode [0x82, 0x08] = .truncated

/-! ### One step -/

/-- R101, R106: a step of the Running core runs the handler of the instruction whose bytes lie at pc, in the state after
the tick (R112), for every opcode map; the machine's step is the one under its own map. -/
def Obligations.StepRunsTheDecodedInstruction : Prop :=
  (∀ (m : OpcodeMap) (s : State) (bytes : List Byte) (i : Instr), s.halted = false → BytesAtPc bytes s →
    m.decode bytes = .ok i [] → stepWith m s = exec i s.beginStep) ∧
  ∀ s : State, step s = stepWith opcodeMap s

/-- The start of a step (R112 of 40_execution_loop.md; that the draw is free is D10, log entry 3): the tick clears R6,
emits Diag(TICK, 0) and changes nothing else; one draw is used up. -/
def Obligations.TickClearsOnlyR6 : Prop :=
  ∀ s : State,
    let t := s.beginStep
    (s.drawAt 0 = true → t.x 6 = 0#8 ∧ t.trace = s.trace ++ [.diag .tick (some 0)]) ∧
    (s.drawAt 0 = false → t.x 6 = s.x 6 ∧ t.trace = s.trace) ∧
    SameRegsBut [6] s t ∧ t.pc = s.pc ∧ t.fl = s.fl ∧ SameMemory s t ∧ SameRunState s t ∧
    (∀ n, t.drawAt n = s.drawAt (n + 1))

/-- R112 (D10, log entry 3): a step with a tick is the step without one from the state whose R6 is cleared and whose
trace has the diagnostic, whatever the step is. -/
def Obligations.TickedStepIsAStepFromClearedR6 : Prop :=
  ∀ (s : State) (draws : List Bool), s.halted = false →
    step { s with ticks := true :: draws } =
      step { (s.setReg 6 0#8).emitDiag .tick (some 0) with ticks := false :: draws }

/-- R102 (D5, log entry 15), R243: an opcode fetch at `pc ≥ 256` stops the run. -/
def Obligations.FetchPastTheEndStops : Prop :=
  ∀ s : State, s.halted = false → 256 ≤ s.pc →
    ∃ t, step s = .next t ∧
      StoppedWith [.diag .addrError (some s.pc), .diag .unknownOpcode none] .unknownOpcode s.beginStep t

/-- R103 (the state left behind is D21, log entry 13): a byte outside the dispatch table stops the run, for every opcode
map. -/
def Obligations.UnknownOpcodeStops : Prop :=
  ∀ (m : OpcodeMap) (s : State) (op : Byte), s.halted = false → s.peek s.pc = some op → m.lookup op = none →
    ∃ t, stepWith m s = .next t ∧
      StoppedWith [.diag .unknownOpcode (some op.toNat)] .unknownOpcode s.beginStep t

/-- R104 (D6, log entry 15), R243: an instruction whose operand bytes run past address 255 stops the run. -/
def Obligations.OperandPastTheEndStops : Prop :=
  ∀ (m : OpcodeMap) (s : State) (op : Byte), s.halted = false → s.peek s.pc = some op → m.lookup op ≠ none →
    256 < s.pc + m.widthOf op →
    ∃ t, stepWith m s = .next t ∧
      StoppedWith [.diag .addrError (some 256), .diag .operandFault (some s.pc)] .operandFault s.beginStep t

/-- R105 (D7, log entry 16), R245: the first register field that is 8 or more stops the run, before any effect. -/
def Obligations.BadRegisterFieldStops : Prop :=
  ∀ (m : OpcodeMap) (s : State) (op : Byte) (fields : List Byte) (f : Format) (k : Nat) (v : Byte),
    s.halted = false → m.lookup op = some f → fields.length = f.kinds.length → BytesAtPc (op :: fields) s →
    f.kinds[k]? = some .R → fields[k]? = some v → 8 ≤ v.toNat →
    (∀ j w, j < k → f.kinds[j]? = some .R → fields[j]? = some w → w.toNat < 8) →
    ∃ t, stepWith m s = .next t ∧
      StoppedWith [.diag .badRegister (some v.toNat)] .badRegister s.beginStep t

/-- The host's placement (log entry 4): the next step runs the instruction of a table word, from every state. -/
def Obligations.PlacedWordIsTheNextInstruction : Prop :=
  ∀ (s : State) (nbits w : Nat) (i : Instr), decodeTableWord nbits w = some i →
    step (s.withFetchWord nbits w) = exec i (s.withFetchWord nbits w).beginStep

/-! ### Data movement and output -/

/-- 41_data_movement.md, LDI (R130). -/
def Obligations.LdiLoadsTheImmediate : Prop :=
  ∀ (s : State) (a : Reg) (b : Byte), WritesRegister (.ldi a b) a b.toNat 3 s

/-- 41_data_movement.md, LD (R131): the byte at the address in `x[b]`, read before the write. -/
def Obligations.LdLoadsFromTheRegisterAddress : Prop :=
  ∀ (s : State) (a b : Reg) (v : Byte), s.peek (s.x b).toNat = some v → WritesRegister (.ld a b) a v.toNat 3 s

/-- 41_data_movement.md, ST (R132; the literal double indirection is D11, log entry 9): `mem[mem[a]] <- x[b]`, and no
other byte. -/
def Obligations.StStoresThroughTheMemoryByte : Prop :=
  ∀ (s : State) (a : Byte) (b : Reg),
    s.peek a.toNat = some (s.indirectAddress a) ∧
    ∃ t, exec (.st a b) s = .next t ∧ t.peek (s.indirectAddress a).toNat = some (s.x b) ∧
      SameMemoryBut (s.indirectAddress a).toNat s t ∧ t.pc = s.pc + 3 ∧ SameRegsBut [] s t ∧ SameRest s t

/-- 41_data_movement.md, PRN and PRA (R133, R134): one output event with the value of the register. -/
def Obligations.PrnAndPraEmitTheRegister : Prop :=
  ∀ (s : State) (a : Reg),
    (∃ t, exec (.prn a) s = .next t ∧ t.trace = s.trace ++ [.out .prn (s.x a)] ∧ t.pc = s.pc + 2 ∧
      SameRegsBut [] s t ∧ t.fl = s.fl ∧ SameMemory s t ∧ SameRunState s t ∧ SameDraws s t) ∧
    (∃ t, exec (.pra a) s = .next t ∧ t.trace = s.trace ++ [.out .pra (s.x a)] ∧ t.pc = s.pc + 2 ∧
      SameRegsBut [] s t ∧ t.fl = s.fl ∧ SameMemory s t ∧ SameRunState s t ∧ SameDraws s t)

/-! ### ALU, register arithmetic, compare -/

/-- R152: the shared handler, for the ten instructions that use it: the result of the ALU goes to `x[a]`, or a division by
zero stops the run with `x[a]`, `pc` and FL unchanged. -/
def Obligations.AluHandlerWritesTheResultOrStops : Prop :=
  ∀ (s : State) (a b : Reg) (op : AluOp) (i : Instr),
    (i, op) ∈ [(Instr.add a b, AluOp.add), (.sub a b, .sub), (.mul a b, .mul), (.div a b, .div), (.mod a b, .mod),
      (.and a b, .and), (.or a b, .or), (.xor a b, .xor), (.shl a b, .shl), (.shr a b, .shr)] →
    (∃ r, alu op (s.x a) (s.x b) = .value r ∧ WritesRegister i a r.toNat 3 s) ∨
    (alu op (s.x a) (s.x b) = .divZero ∧ (op = .div ∨ op = .mod) ∧
      ∃ t, exec i s = .next t ∧ StoppedWith [.diag .divByZero (some s.pc)] .divByZero s t)

/-- 42_alu.md section 2, ADD, SUB and MUL (R153 to R155): the low byte of the exact result. -/
def Obligations.AddSubMulKeepTheLowByte : Prop :=
  ∀ (s : State) (a b : Reg),
    WritesRegister (.add a b) a (((s.x a).toNat + (s.x b).toNat) % 256) 3 s ∧
    WritesRegister (.sub a b) a (((s.x a).toNat + 256 - (s.x b).toNat) % 256) 3 s ∧
    WritesRegister (.mul a b) a (((s.x a).toNat * (s.x b).toNat) % 256) 3 s

/-- 42_alu.md sections 2 and 3, AND, OR, XOR and NOT (R158 to R160, R163), bit by bit. -/
def Obligations.BitwiseOperationsActBitByBit : Prop :=
  ∀ (s : State) (a b : Reg),
    (∃ v : Byte, WritesRegister (.and a b) a v.toNat 3 s ∧
      ∀ k < 8, v.getLsbD k = ((s.x a).getLsbD k && (s.x b).getLsbD k)) ∧
    (∃ v : Byte, WritesRegister (.or a b) a v.toNat 3 s ∧
      ∀ k < 8, v.getLsbD k = ((s.x a).getLsbD k || (s.x b).getLsbD k)) ∧
    (∃ v : Byte, WritesRegister (.xor a b) a v.toNat 3 s ∧
      ∀ k < 8, v.getLsbD k = ((s.x a).getLsbD k != (s.x b).getLsbD k)) ∧
    WritesRegister (.not a) a (255 - (s.x a).toNat) 2 s

/-- 42_alu.md section 2, SHL and SHR (R161, R162): the whole register is the count, and a count of 8 or more gives 0. -/
def Obligations.ShiftsUseTheWholeCount : Prop :=
  ∀ (s : State) (a b : Reg),
    WritesRegister (.shl a b) a (((s.x a).toNat * 2 ^ (s.x b).toNat) % 256) 3 s ∧
    WritesRegister (.shr a b) a ((s.x a).toNat / 2 ^ (s.x b).toNat) 3 s ∧
    (8 ≤ (s.x b).toNat → WritesRegister (.shl a b) a 0 3 s ∧ WritesRegister (.shr a b) a 0 3 s)

/-- 42_alu.md section 2, DIV and MOD by a divisor other than 0 (R156, R157; the integer quotient is D4, log entry 7). -/
def Obligations.DivAndModGiveQuotientAndRemainder : Prop :=
  ∀ (s : State) (a b : Reg), s.x b ≠ 0#8 →
    WritesRegister (.div a b) a ((s.x a).toNat / (s.x b).toNat) 3 s ∧
    WritesRegister (.mod a b) a ((s.x a).toNat % (s.x b).toNat) 3 s

/-- 42_alu.md section 2, DIV and MOD by 0 (R156, R157; the cause codes are D9, log entry 14): the run stops and nothing
else changes. -/
def Obligations.DivAndModByZeroStop : Prop :=
  ∀ (s : State) (a b : Reg), s.x b = 0#8 →
    (∃ t, exec (.div a b) s = .next t ∧ StoppedWith [.diag .divByZero (some s.pc)] .divByZero s t) ∧
    (∃ t, exec (.mod a b) s = .next t ∧ StoppedWith [.diag .divByZero (some s.pc)] .divByZero s t)

/-- 42_alu.md section 4, ADDI, INC and DEC (R164 to R166; modulo 256 is D3, log entry 6). -/
def Obligations.AddiIncDecWrapModulo256 : Prop :=
  ∀ (s : State) (a : Reg) (b : Byte),
    WritesRegister (.addi a b) a (((s.x a).toNat + b.toNat) % 256) 3 s ∧
    WritesRegister (.inc a) a (((s.x a).toNat + 1) % 256) 2 s ∧
    WritesRegister (.dec a) a (((s.x a).toNat + 255) % 256) 2 s

/-- 42_alu.md section 5, CMP (R167): the whole of FL, unsigned; no register and no byte of memory changes. -/
def Obligations.CmpWritesExactlyOneFlag : Prop :=
  ∀ (s : State) (a b : Reg),
    ∃ t, exec (.cmp a b) s = .next t ∧
      ((s.x a).toNat = (s.x b).toNat → t.fl = 0b0000_0001#8) ∧
      ((s.x a).toNat > (s.x b).toNat → t.fl = 0b0000_0010#8) ∧
      ((s.x a).toNat < (s.x b).toNat → t.fl = 0b0000_0100#8) ∧
      t.pc = s.pc + 3 ∧ SameRegsBut [] s t ∧ SameMemory s t ∧ t.trace = s.trace ∧ SameRunState s t ∧ SameDraws s t

/-! ### Stack and subroutine -/

/-- 43_stack_and_subroutine.md, PUSH (R190; SP modulo 256 is D3, log entry 6; the order for R7 is D13, log entry 8). -/
def Obligations.PushStoresBelowTheStackPointer : Prop :=
  ∀ (s : State) (a : Reg),
    (s.decSp.sp).toNat = (s.sp.toNat + 255) % 256 ∧
    ∃ t, exec (.push a) s = .next t ∧ t.sp = s.decSp.sp ∧
      t.peek s.decSp.sp.toNat = some (if a = 7 then s.decSp.sp else s.x a) ∧
      SameMemoryBut s.decSp.sp.toNat s t ∧ SameRegsBut [7] s t ∧ t.pc = s.pc + 2 ∧ SameRest s t

/-- 43_stack_and_subroutine.md, POP of a stack that is not empty (R191; the order for R7 is D13, log entry 8; SP modulo 256,
which only POP R7 can reach here, is D3, log entry 6). -/
def Obligations.PopLoadsAndRaisesTheStackPointer : Prop :=
  ∀ (s : State) (a : Reg) (v : Byte), s.sp.toNat < 244 → s.peek s.sp.toNat = some v →
    ∃ t, exec (.pop a) s = .next t ∧
      (a ≠ 7 → t.x a = v ∧ t.sp.toNat = s.sp.toNat + 1) ∧ (a = 7 → t.sp.toNat = (v.toNat + 1) % 256) ∧
      SameRegsBut [a, 7] s t ∧ SameMemory s t ∧ t.pc = s.pc + 2 ∧ SameRest s t

/-- 43_stack_and_subroutine.md, POP of an empty stack (R191; the state left behind is D21, log entry 13). -/
def Obligations.PopOfAnEmptyStackStops : Prop :=
  ∀ (s : State) (a : Reg), 244 ≤ s.sp.toNat →
    ∃ t, exec (.pop a) s = .next t ∧
      StoppedWith [.diag .stackUnderflow (some s.sp.toNat)] .stackUnderflow s t

/-- 43_stack_and_subroutine.md, CALL (R192; the one-byte return address is D24, log entry 10; SP modulo 256 is D3, log
entry 6; the order for R7 is D13, log entry 8). -/
def Obligations.CallPushesTheReturnAddress : Prop :=
  ∀ (s : State) (a : Reg),
    (s.decSp.sp).toNat = (s.sp.toNat + 255) % 256 ∧
    ∃ t, exec (.call a) s = .next t ∧ t.sp = s.decSp.sp ∧
      t.peek s.decSp.sp.toNat = some (BitVec.ofNat 8 (s.pc + 2)) ∧
      t.pc = (if a = 7 then s.decSp.sp else s.x a).toNat ∧
      SameMemoryBut s.decSp.sp.toNat s t ∧ SameRegsBut [7] s t ∧ SameRest s t

/-- 43_stack_and_subroutine.md, RET (R193; no underflow check is D12, log entry 12; SP modulo 256 is D3, log entry 6). -/
def Obligations.RetPopsTheProgramCounter : Prop :=
  ∀ (s : State) (v : Byte), s.peek s.sp.toNat = some v →
    ∃ t, exec .ret s = .next t ∧ t.pc = v.toNat ∧ t.sp.toNat = (s.sp.toNat + 1) % 256 ∧
      SameRegsBut [7] s t ∧ SameMemory s t ∧ SameRest s t

/-- R194 (derived by the spec): a PUSH and then a POP move the value and restore SP. -/
def Obligations.PushThenPopRestoresTheStack : Prop :=
  ∀ (s : State) (a b : Reg), b ≠ 7 → 1 ≤ s.sp.toNat → s.sp.toNat ≤ 244 →
    ∃ t u, exec (.push a) s = .next t ∧ exec (.pop b) t = .next u ∧
      u.x b = (if a = 7 then s.sp - 1#8 else s.x a) ∧ u.sp = s.sp ∧ u.pc = s.pc + 4 ∧ SameRegsBut [b] s u ∧
      SameMemoryBut (s.sp.toNat - 1) s u ∧ SameRest s u

/-- R194 (derived by the spec): a CALL and a RET at which SP and the pushed byte are as the CALL left them return to the
call site + 2 and restore SP, whatever ran between them. -/
def Obligations.CallThenMatchingRetReturns : Prop :=
  ∀ (s t u : State) (a : Reg), s.pc ≤ 253 → exec (.call a) s = .next t → u.sp = t.sp →
    u.peek t.sp.toNat = t.peek t.sp.toNat →
    ∃ v, exec .ret u = .next v ∧ v.pc = s.pc + 2 ∧ v.sp = s.sp

/-! ### Control and system -/

/-- 44_control_and_system.md section 1, JMP, JEQ and JNE (R210 to R212): absolute jumps, on bit 0 of FL. -/
def Obligations.JumpsFollowTheEqualFlag : Prop :=
  ∀ (s : State) (a : Reg),
    MovesOnlyPc (.jmp a) (s.x a).toNat s ∧
    MovesOnlyPc (.jeq a) (if s.fl.getLsbD 0 = true then (s.x a).toNat else s.pc + 2) s ∧
    MovesOnlyPc (.jne a) (if s.fl.getLsbD 0 = false then (s.x a).toNat else s.pc + 2) s

/-- 44_control_and_system.md, the stubs JGT, JGE and JLE, and INT, IRET and NOP (R213 to R215, R217 to R219): they only
advance pc by their width. -/
def Obligations.StubsAndNearNoOpsOnlyAdvance : Prop :=
  ∀ (s : State) (a : Byte),
    MovesOnlyPc (.jgt a) (s.pc + 2) s ∧ MovesOnlyPc (.jge a) (s.pc + 2) s ∧ MovesOnlyPc (.jle a) (s.pc + 2) s ∧
    MovesOnlyPc (.int a) (s.pc + 2) s ∧ MovesOnlyPc .iret (s.pc + 1) s ∧ MovesOnlyPc .nop (s.pc + 1) s

/-- 44_control_and_system.md, HLT (R216; the unchanged pc is D8, log entry 13): the normal end, with no diagnostic. -/
def Obligations.HltEndsTheRun : Prop :=
  ∀ s : State, ∃ t, exec .hlt s = .next t ∧ StoppedWith [] .hlt s t

/-! ### Whole-machine rules -/

/-- R250 (D15): every instruction runs from every state; none faults, none is refused. -/
def Obligations.EveryInstructionHasANextState : Prop :=
  ∀ (i : Instr) (s : State), ∃ t, exec i s = .next t

/-- R100, R110: a step has a next state unless the run has ended. That the step of a constructed core, which R100 calls
Halted, is the host's `run()` and so has a next state is the MODEL'S CHOICE (log entry 4); the fault is the model's form of
"no step" (log entry 5). -/
def Obligations.OnlyAnEndedRunHasNoStep : Prop :=
  ∀ s : State, (∃ t, step s = .next t) ∨ (s.halted = true ∧ s.haltCause ≠ .none ∧ step s = .fault .halted)

/-- 10_state.md section 4 (R30): CMP is the only writer of FL, and JEQ and JNE the only readers, of bit 0 alone. The last
clause (with FL 0 JEQ does not jump and JNE does) is the spec's own inference (R30: "[derived: ...]" from R211 and R212). -/
def Obligations.OnlyCmpWritesAndJeqJneReadFlags : Prop :=
  (∀ a b s t, exec (.cmp a b) s = .next t → t.fl = 1#8 ∨ t.fl = 2#8 ∨ t.fl = 4#8) ∧
  (∀ i s t, exec i s = .next t → (∀ a b, i ≠ .cmp a b) → t.fl = s.fl) ∧
  (∀ s t, step s = .next t → t.fl = s.fl ∨ ∃ a b u, s.nextAction opcodeMap = .run (.cmp a b) u) ∧
  (∀ i s t f, exec i s = .next t → (∀ a b, i ≠ .cmp a b) → (∀ a, i ≠ .jeq a) → (∀ a, i ≠ .jne a) →
    exec i (s.setFl f) = .next (t.setFl f)) ∧
  (∀ a b s f, exec (.cmp a b) (s.setFl f) = exec (.cmp a b) s) ∧
  (∀ a s t f, f.getLsbD 0 = s.fl.getLsbD 0 → exec (.jeq a) s = .next t →
    exec (.jeq a) (s.setFl f) = .next (t.setFl f)) ∧
  (∀ a s t f, f.getLsbD 0 = s.fl.getLsbD 0 → exec (.jne a) s = .next t →
    exec (.jne a) (s.setFl f) = .next (t.setFl f)) ∧
  State.reset.fl = 0#8 ∧ (∀ s t, hostRun s = .next t → t.fl = s.fl) ∧
  (∀ a s, s.fl = 0#8 → exec (.jeq a) s = .next (s.advance 2) ∧ exec (.jne a) s = .next (s.setPc (s.x a).toNat))

/-- The program counter after each handler (R108; D8, D21 and D13, log entries 13 and 8). -/
def Obligations.ProgramCounterFollowsTheTable : Prop :=
  ∀ (i : Instr) (s t : State), exec i s = .next t →
    t.pc = match i with
      | .jmp a => (s.x a).toNat
      | .jeq a => if s.fl.getLsbD 0 = true then (s.x a).toNat else s.pc + 2
      | .jne a => if s.fl.getLsbD 0 = true then s.pc + 2 else (s.x a).toNat
      | .call a => (if a = 7 then s.sp - 1#8 else s.x a).toNat
      | .ret => (s.mem.read s.sp.toNat).toNat
      | .hlt => s.pc
      | .div _ b => if s.x b = 0#8 then s.pc else s.pc + 3
      | .mod _ b => if s.x b = 0#8 then s.pc else s.pc + 3
      | .pop _ => if 244 ≤ s.sp.toNat then s.pc else s.pc + 2
      | j => s.pc + (opcodeMap.encode j).length

/-- R168 (derived by the spec): what an instruction of 42_alu.md can do. -/
def Obligations.AluFamilyTouchesOneRegisterAndNoMemory : Prop :=
  ∀ (i : Instr) (a b : Reg) (v : Byte) (s t : State),
    i ∈ [Instr.add a b, .sub a b, .mul a b, .div a b, .mod a b, .and a b, .or a b, .xor a b, .shl a b, .shr a b, .not a,
      .addi a v, .inc a, .dec a, .cmp a b] → exec i s = .next t →
    SameRegsBut (if i = .cmp a b then [] else [a]) s t ∧ (i = .cmp a b ∨ t.fl = s.fl) ∧ SameMemory s t ∧ SameDraws s t ∧
      ((t.pc = s.pc + (opcodeMap.encode i).length ∧ SameRunState s t ∧ t.trace = s.trace) ∨
        ((i = .div a b ∨ i = .mod a b) ∧ s.x b = 0#8 ∧ StoppedWith [.diag .divByZero (some s.pc)] .divByZero s t))

/-- 60_exceptions.md section 1 (R241): a stop makes exactly two writes. That a whole step which ends Halted has changed no
register, `pc`, FL or memory cell beyond its tick is the spec's inference (R246: "[derived: ...]") and its decisions D8 and
D21 (log entry 13); its cause is one of those R241 lists (INTERNAL is never reached, R107). -/
def Obligations.StopsChangeNothingElse : Prop :=
  (∀ (s : State) (c : HaltCause), s.raiseStop c = { s with halted := true, haltCause := c }) ∧
  (∀ s t : State, s.halted = false → step s = .next t → t.halted = true →
    SameRegsBut [] s.beginStep t ∧ t.pc = s.pc ∧ t.fl = s.fl ∧ SameMemory s t ∧
    t.haltCause ∈ [HaltCause.hlt, .stackUnderflow, .divByZero, .unknownOpcode, .operandFault, .badRegister])

/-- R107: the ALU has every operation that is passed to it; an operation it did not have would be the INTERNAL stop;
that stop is not reached, and its diagnostic is not emitted. -/
def Obligations.InternalStopIsUnreachable : Prop :=
  (∀ op va vb, alu op va vb ≠ .unsupported) ∧
  (∀ (s : State) (a : Reg) (width : Nat) (op : Byte),
    StoppedWith [.diag .internal (some op.toNat)] .internal s (s.aluFinish a width op .unsupported)) ∧
  ∀ s t : State, step s = .next t →
    (s.haltCause ≠ .internal → t.haltCause ≠ .internal) ∧
    diagCount .internal t.trace = diagCount .internal s.trace

/-- R32: no instruction clears `halted`. -/
def Obligations.NoInstructionClearsHalted : Prop :=
  ∀ (i : Instr) (s t : State), exec i s = .next t → s.halted = true → t.halted = true

/-- R34 (the trace is D22, log entry 14): the trace is append-only. -/
def Obligations.TraceIsAppendOnly : Prop :=
  ∀ s t : State, step s = .next t → ∃ events, t.trace = s.trace ++ events

/-- R114: exactly one output event for a PRN or PRA, with the value of the register, and none for anything else. -/
def Obligations.OutputIsExactlyPrnAndPra : Prop :=
  (∀ (i : Instr) (s t : State), exec i s = .next t →
    outputs t.trace = outputs s.trace ++ (match i with
      | .prn a => [(.prn, s.x a)]
      | .pra a => [(.pra, s.x a)]
      | _ => [])) ∧
  (∀ s : State, outputs s.beginStep.trace = outputs s.trace) ∧
  (∀ s t : State, step s = .next t → (∀ i u, s.nextAction opcodeMap ≠ .run i u) → outputs t.trace = outputs s.trace)

/-- R244 (derived by the spec): an addressing error is reported only by a step that stops the run. -/
def Obligations.AddressingErrorsOnlyInStoppingSteps : Prop :=
  ∀ s t : State, s.halted = false → step s = .next t → t.halted = false →
    diagCount .addrError t.trace = diagCount .addrError s.trace

/-- R62 (derived by the spec): a byte stored where the next instruction is fetched is the opcode byte of the very next
fetch, for each instruction that stores. -/
def Obligations.StoresAreSeenByTheNextFetch : Prop :=
  ∀ (i : Instr) (s t : State) (q : MemRequest), exec i s = .next t → q ∈ dataRequests i s → q.we = true →
    q.addr = t.pc → ((t.beginStep.fetchBytes opcodeMap).1.head?) = q.wdata

/-! ### The memory interface at transaction level -/

/-- 20_memory.md, the users of the interface (R53): the requests of a step, applied in order, are all that a step does to
memory. The requests are the MODEL'S own computed form of the interface at transaction level (R64; D14, log entry 17). -/
def Obligations.RequestsAccountForEveryMemoryChange : Prop :=
  ∀ s t : State, step s = .next t → t.mem = (s.stepRequests opcodeMap).foldl MemRequest.apply s.mem

/-- 20_memory.md section 6 (R64; D14, log entry 17), R54: at most three fetch reads and two data accesses; data addresses are in range;
fetch addresses fit 9 bits; each read answers the byte or the error. -/
def Obligations.RequestsAreBoundedAndAnswered : Prop :=
  ∀ s : State, (fetchRequests opcodeMap s).length ≤ 3 ∧
    (∀ q ∈ fetchRequests opcodeMap s, q.we = false ∧ q.rdata = s.peek q.addr ∧ (q.err = true ↔ 256 ≤ q.addr) ∧
      (s.pc ≤ 258 → q.addr ≤ 258)) ∧
    ∀ i : Instr, (dataRequests i s).length ≤ 2 ∧
      ∀ q ∈ dataRequests i s, q.addr < 256 ∧ q.err = false ∧ (q.we = false → q.rdata = s.peek q.addr)

/-! ### The invariant -/

/-- The constructed state satisfies the invariant. -/
def Obligations.ConstructionSatisfiesTheInvariant : Prop := State.reset.Inv

/-- Every step keeps the invariant: memory in canonical form, `pc` in 0..258 (R27), FL zero or one flag (R29, R30),
`halt_cause` NONE while Running (R33), never INTERNAL (R107). -/
def Obligations.EveryStepKeepsTheInvariant : Prop :=
  ∀ s t : State, s.Inv → step s = .next t → t.Inv
end

