-- ==== Sys2Proof/Laws/Memory.lean ====
section
/-! SUPPORT. Memory as a list: read after write, and the canonical form is kept by every memory operation. -/

namespace Sys2Proof.Machine

theorem Memory.read_erase (m : Memory) (a b : Nat) :
    (m.erase a).read b = if a = b then Memory.unlisted else m.read b := by
  induction m with
  | nil => simp [Memory.erase, Memory.read]
  | cons c m ih =>
    obtain ⟨k, v⟩ := c
    simp only [Memory.erase] at ih ⊢
    by_cases hk : k = a
    · subst hk
      rw [List.filter_cons_of_neg (by simp), ih]
      by_cases hb : k = b <;> simp [Memory.read, hb]
    · rw [List.filter_cons_of_pos (by simpa using hk)]
      simp only [Memory.read, ih]
      by_cases hkb : k = b
      · subst hkb
        simp [Ne.symm hk]
      · simp [hkb]

theorem Memory.not_mem_erase (m : Memory) (a : Nat) : ∀ c ∈ m.erase a, c.1 ≠ a := by
  intro c hc
  simpa using (List.mem_filter.mp hc).2

theorem Memory.read_insert (m : Memory) (a b : Nat) (v : Byte) (h : ∀ c ∈ m, c.1 ≠ a) :
    (m.insert a v).read b = if a = b then v else m.read b := by
  induction m with
  | nil => simp [Memory.insert, Memory.read]
  | cons c m ih =>
    obtain ⟨k, w⟩ := c
    have hk : k ≠ a := h (k, w) (by simp)
    have ih := ih fun c hc => h c (by simp [hc])
    unfold Memory.insert
    split
    · simp [Memory.read]
    · simp only [Memory.read, ih]
      by_cases hkb : k = b
      · subst hkb
        simp [Ne.symm hk]
      · simp [hkb]

/-- A read after a write: the written value at its address, every other address as before (R57 of
20_memory.md). It holds of every list, canonical or not. -/
theorem Memory.read_write (m : Memory) (a b : Nat) (v : Byte) :
    (m.write a v).read b = if a = b then v else m.read b := by
  unfold Memory.write
  split
  · rename_i h
    rw [Memory.read_erase, h]
  · rw [Memory.read_insert _ _ _ _ (Memory.not_mem_erase m a), Memory.read_erase]
    by_cases hab : a = b <;> simp [hab]

theorem Memory.erase_wf {m : Memory} (a : Nat) (h : Memory.wf m) : Memory.wf (m.erase a) :=
  ⟨h.1.sublist List.filter_sublist, fun c hc => h.2 c (List.mem_filter.mp hc).1⟩

theorem Memory.mem_insert {m : Memory} {a : Nat} {v : Byte} {c : Host.Cell} (h : c ∈ m.insert a v) :
    c = (a, v) ∨ c ∈ m := by
  induction m with
  | nil => simpa [Memory.insert] using h
  | cons d m ih =>
    obtain ⟨k, w⟩ := d
    unfold Memory.insert at h
    split at h
    · simpa using h
    · rcases List.mem_cons.mp h with rfl | h
      · simp
      · rcases ih h with rfl | h <;> simp [*]

theorem Memory.insert_wf {m : Memory} {a : Nat} {v : Byte} (ha : a < Config.memSize) (hv : v ≠ Memory.unlisted)
    (h : Memory.wf m) (hne : ∀ c ∈ m, c.1 ≠ a) : Memory.wf (m.insert a v) := by
  refine ⟨?_, fun c hc => ?_⟩
  · induction m with
    | nil => simp [Memory.insert]
    | cons d m ih =>
      obtain ⟨k, w⟩ := d
      have hp := List.pairwise_cons.mp h.1
      have hk : k ≠ a := hne (k, w) (by simp)
      unfold Memory.insert
      split
      · rename_i hlt
        refine List.pairwise_cons.mpr ⟨fun c hc => ?_, h.1⟩
        rcases List.mem_cons.mp hc with rfl | hc
        · exact hlt
        · exact Nat.lt_trans hlt (hp.1 c hc)
      · rename_i hge
        refine List.pairwise_cons.mpr ⟨fun c hc => ?_, ?_⟩
        · rcases Memory.mem_insert hc with rfl | hc
          · simp only
            omega
          · exact hp.1 c hc
        · exact ih ⟨hp.2, fun c hc => h.2 c (by simp [hc])⟩ fun c hc => hne c (by simp [hc])
  · rcases Memory.mem_insert hc with rfl | hc
    · exact ⟨ha, hv⟩
    · exact h.2 c hc

/-- A write inside the address space keeps the canonical form. -/
theorem Memory.write_wf {m : Memory} {a : Nat} (v : Byte) (ha : a < Config.memSize) (h : Memory.wf m) :
    Memory.wf (m.write a v) := by
  unfold Memory.write
  split
  · exact Memory.erase_wf a h
  · rename_i hv
    exact Memory.insert_wf ha hv (Memory.erase_wf a h) (Memory.not_mem_erase m a)

/-- Memory at construction lists nothing, which is canonical. -/
theorem Memory.reset_wf : Memory.wf State.reset.mem := by decide

theorem Memory.read_of_lt {m : Memory} {k b : Nat} (h : ∀ c ∈ m, k ≤ c.1) (hb : b < k) :
    m.read b = Memory.unlisted := by
  induction m with
  | nil => rfl
  | cons c m ih =>
    obtain ⟨j, v⟩ := c
    have := h (j, v) (by simp)
    simp only [Memory.read]
    rw [if_neg (by simp only at this; omega)]
    exact ih fun c hc => h c (by simp [hc])

/-- Equal memories are equal lists: two canonical lists that read alike at every address are the same list. -/
theorem Memory.ext {m n : Memory} (hm : Memory.wf m) (hn : Memory.wf n) (h : ∀ a, m.read a = n.read a) : m = n := by
  induction m generalizing n with
  | nil =>
    cases n with
    | nil => rfl
    | cons d n =>
      have := h d.1
      simp only [Memory.read, if_true] at this
      exact absurd this.symm (hn.2 d (by simp)).2
  | cons c m ih =>
    cases n with
    | nil =>
      have := h c.1
      simp only [Memory.read, if_true] at this
      exact absurd this (hm.2 c (by simp)).2
    | cons d n =>
      have pm := List.pairwise_cons.mp hm.1
      have pn := List.pairwise_cons.mp hn.1
      have below : ∀ {k : Nat} {e : Host.Cell} {l : Memory}, e.1 = k → (∀ c ∈ l, k < c.1) →
          ∀ b < k, Memory.read (e :: l) b = Memory.unlisted := fun he hl b hb =>
        Memory.read_of_lt (k := _) (fun c hc => by
          rcases List.mem_cons.mp hc with rfl | hc
          · exact he.ge
          · exact (hl c hc).le) hb
      have head : ∀ (e : Host.Cell) (l : Memory), Memory.read (e :: l) e.1 = e.2 := fun e l => by
        simp [Memory.read]
      have hk : c.1 = d.1 := by
        rcases Nat.lt_trichotomy c.1 d.1 with hlt | heq | hgt
        · have h1 := h c.1
          rw [head, below rfl pn.1 c.1 hlt] at h1
          exact absurd h1 (hm.2 c (by simp)).2
        · exact heq
        · have h1 := h d.1
          rw [head, below rfl pm.1 d.1 hgt] at h1
          exact absurd h1.symm (hn.2 d (by simp)).2
      have hv : c.2 = d.2 := by
        have h1 := h c.1
        rw [head, hk, head] at h1
        exact h1
      have hcd : c = d := Prod.ext hk hv
      subst hcd
      congr 1
      refine ih ⟨pm.2, fun e he => hm.2 e (by simp [he])⟩ ⟨pn.2, fun e he => hn.2 e (by simp [he])⟩ fun a => ?_
      by_cases ha : a = c.1
      · subst ha
        rw [Memory.read_of_lt (k := c.1 + 1) (fun e he => pm.1 e he) (Nat.lt_succ_self _),
          Memory.read_of_lt (k := c.1 + 1) (fun e he => pn.1 e he) (Nat.lt_succ_self _)]
      · have h1 := h a
        obtain ⟨k, v⟩ := c
        simpa [Memory.read, Ne.symm ha] using h1

end Sys2Proof.Machine
end

