-- ==== Sys2Proof/Laws/State.lean ====
section
/-! SUPPORT. One lemma per field per update of State, true by rfl. The update of memory is in Laws/Ops. -/

namespace Sys2Proof.Machine

variable (s : State)

/-! ### `setReg` -/

@[simp] theorem setReg_regs (r : Reg) (v : Byte) : (s.setReg r v).regs = s.regs.set r v := rfl
@[simp] theorem setReg_pc (r : Reg) (v : Byte) : (s.setReg r v).pc = s.pc := rfl
@[simp] theorem setReg_fl (r : Reg) (v : Byte) : (s.setReg r v).fl = s.fl := rfl
@[simp] theorem setReg_halted (r : Reg) (v : Byte) : (s.setReg r v).halted = s.halted := rfl
@[simp] theorem setReg_haltCause (r : Reg) (v : Byte) : (s.setReg r v).haltCause = s.haltCause := rfl
@[simp] theorem setReg_mem (r : Reg) (v : Byte) : (s.setReg r v).mem = s.mem := rfl
@[simp] theorem setReg_trace (r : Reg) (v : Byte) : (s.setReg r v).trace = s.trace := rfl
@[simp] theorem setReg_ticks (r : Reg) (v : Byte) : (s.setReg r v).ticks = s.ticks := rfl
@[simp] theorem setReg_tickNo (r : Reg) (v : Byte) : (s.setReg r v).tickNo = s.tickNo := rfl
@[simp] theorem setReg_peek (r : Reg) (v : Byte) (q : Nat) : (s.setReg r v).peek q = s.peek q := rfl

/-! ### `setPc` -/

@[simp] theorem setPc_regs (p : Nat) : (s.setPc p).regs = s.regs := rfl
@[simp] theorem setPc_pc (p : Nat) : (s.setPc p).pc = p := rfl
@[simp] theorem setPc_fl (p : Nat) : (s.setPc p).fl = s.fl := rfl
@[simp] theorem setPc_halted (p : Nat) : (s.setPc p).halted = s.halted := rfl
@[simp] theorem setPc_haltCause (p : Nat) : (s.setPc p).haltCause = s.haltCause := rfl
@[simp] theorem setPc_mem (p : Nat) : (s.setPc p).mem = s.mem := rfl
@[simp] theorem setPc_trace (p : Nat) : (s.setPc p).trace = s.trace := rfl
@[simp] theorem setPc_ticks (p : Nat) : (s.setPc p).ticks = s.ticks := rfl
@[simp] theorem setPc_tickNo (p : Nat) : (s.setPc p).tickNo = s.tickNo := rfl
@[simp] theorem setPc_x (p : Nat) (q : Reg) : (s.setPc p).x q = s.x q := rfl
@[simp] theorem setPc_peek (p : Nat) (q : Nat) : (s.setPc p).peek q = s.peek q := rfl

/-! ### `advance` -/

@[simp] theorem advance_regs (w : Nat) : (s.advance w).regs = s.regs := rfl
@[simp] theorem advance_pc (w : Nat) : (s.advance w).pc = s.pc + w := rfl
@[simp] theorem advance_fl (w : Nat) : (s.advance w).fl = s.fl := rfl
@[simp] theorem advance_halted (w : Nat) : (s.advance w).halted = s.halted := rfl
@[simp] theorem advance_haltCause (w : Nat) : (s.advance w).haltCause = s.haltCause := rfl
@[simp] theorem advance_mem (w : Nat) : (s.advance w).mem = s.mem := rfl
@[simp] theorem advance_trace (w : Nat) : (s.advance w).trace = s.trace := rfl
@[simp] theorem advance_ticks (w : Nat) : (s.advance w).ticks = s.ticks := rfl
@[simp] theorem advance_tickNo (w : Nat) : (s.advance w).tickNo = s.tickNo := rfl
@[simp] theorem advance_x (w : Nat) (q : Reg) : (s.advance w).x q = s.x q := rfl
@[simp] theorem advance_peek (w : Nat) (q : Nat) : (s.advance w).peek q = s.peek q := rfl

/-! ### `setFl` -/

@[simp] theorem setFl_regs (v : Byte) : (s.setFl v).regs = s.regs := rfl
@[simp] theorem setFl_pc (v : Byte) : (s.setFl v).pc = s.pc := rfl
@[simp] theorem setFl_fl (v : Byte) : (s.setFl v).fl = v := rfl
@[simp] theorem setFl_halted (v : Byte) : (s.setFl v).halted = s.halted := rfl
@[simp] theorem setFl_haltCause (v : Byte) : (s.setFl v).haltCause = s.haltCause := rfl
@[simp] theorem setFl_mem (v : Byte) : (s.setFl v).mem = s.mem := rfl
@[simp] theorem setFl_trace (v : Byte) : (s.setFl v).trace = s.trace := rfl
@[simp] theorem setFl_ticks (v : Byte) : (s.setFl v).ticks = s.ticks := rfl
@[simp] theorem setFl_tickNo (v : Byte) : (s.setFl v).tickNo = s.tickNo := rfl
@[simp] theorem setFl_x (v : Byte) (q : Reg) : (s.setFl v).x q = s.x q := rfl
@[simp] theorem setFl_peek (v : Byte) (q : Nat) : (s.setFl v).peek q = s.peek q := rfl

/-! ### `emit` -/

@[simp] theorem emit_regs (e : Event) : (s.emit e).regs = s.regs := rfl
@[simp] theorem emit_pc (e : Event) : (s.emit e).pc = s.pc := rfl
@[simp] theorem emit_fl (e : Event) : (s.emit e).fl = s.fl := rfl
@[simp] theorem emit_halted (e : Event) : (s.emit e).halted = s.halted := rfl
@[simp] theorem emit_haltCause (e : Event) : (s.emit e).haltCause = s.haltCause := rfl
@[simp] theorem emit_mem (e : Event) : (s.emit e).mem = s.mem := rfl
@[simp] theorem emit_trace (e : Event) : (s.emit e).trace = s.trace ++ [e] := rfl
@[simp] theorem emit_ticks (e : Event) : (s.emit e).ticks = s.ticks := rfl
@[simp] theorem emit_tickNo (e : Event) : (s.emit e).tickNo = s.tickNo := rfl
@[simp] theorem emit_x (e : Event) (q : Reg) : (s.emit e).x q = s.x q := rfl
@[simp] theorem emit_peek (e : Event) (q : Nat) : (s.emit e).peek q = s.peek q := rfl

/-! ### `raiseStop` -/

@[simp] theorem raiseStop_regs (c : HaltCause) : (s.raiseStop c).regs = s.regs := rfl
@[simp] theorem raiseStop_pc (c : HaltCause) : (s.raiseStop c).pc = s.pc := rfl
@[simp] theorem raiseStop_fl (c : HaltCause) : (s.raiseStop c).fl = s.fl := rfl
@[simp] theorem raiseStop_halted (c : HaltCause) : (s.raiseStop c).halted = true := rfl
@[simp] theorem raiseStop_haltCause (c : HaltCause) : (s.raiseStop c).haltCause = c := rfl
@[simp] theorem raiseStop_mem (c : HaltCause) : (s.raiseStop c).mem = s.mem := rfl
@[simp] theorem raiseStop_trace (c : HaltCause) : (s.raiseStop c).trace = s.trace := rfl
@[simp] theorem raiseStop_ticks (c : HaltCause) : (s.raiseStop c).ticks = s.ticks := rfl
@[simp] theorem raiseStop_tickNo (c : HaltCause) : (s.raiseStop c).tickNo = s.tickNo := rfl
@[simp] theorem raiseStop_x (c : HaltCause) (q : Reg) : (s.raiseStop c).x q = s.x q := rfl
@[simp] theorem raiseStop_peek (c : HaltCause) (q : Nat) : (s.raiseStop c).peek q = s.peek q := rfl

/-! ### `stopWith` -/

@[simp] theorem stopWith_regs (d : DiagCode) (n : Option Nat) (c : HaltCause) : (s.stopWith d n c).regs = s.regs := rfl
@[simp] theorem stopWith_pc (d : DiagCode) (n : Option Nat) (c : HaltCause) : (s.stopWith d n c).pc = s.pc := rfl
@[simp] theorem stopWith_fl (d : DiagCode) (n : Option Nat) (c : HaltCause) : (s.stopWith d n c).fl = s.fl := rfl
@[simp] theorem stopWith_halted (d : DiagCode) (n : Option Nat) (c : HaltCause) : (s.stopWith d n c).halted = true := rfl
@[simp] theorem stopWith_haltCause (d : DiagCode) (n : Option Nat) (c : HaltCause) : (s.stopWith d n c).haltCause = c := rfl
@[simp] theorem stopWith_mem (d : DiagCode) (n : Option Nat) (c : HaltCause) : (s.stopWith d n c).mem = s.mem := rfl
@[simp] theorem stopWith_trace (d : DiagCode) (n : Option Nat) (c : HaltCause) : (s.stopWith d n c).trace = s.trace ++ [.diag d n] := rfl
@[simp] theorem stopWith_ticks (d : DiagCode) (n : Option Nat) (c : HaltCause) : (s.stopWith d n c).ticks = s.ticks := rfl
@[simp] theorem stopWith_tickNo (d : DiagCode) (n : Option Nat) (c : HaltCause) : (s.stopWith d n c).tickNo = s.tickNo := rfl
@[simp] theorem stopWith_x (d : DiagCode) (n : Option Nat) (c : HaltCause) (q : Reg) : (s.stopWith d n c).x q = s.x q := rfl
@[simp] theorem stopWith_peek (d : DiagCode) (n : Option Nat) (c : HaltCause) (q : Nat) : (s.stopWith d n c).peek q = s.peek q := rfl

/-! ### `startRun` -/

@[simp] theorem startRun_regs : s.startRun.regs = s.regs.set spReg spInit := rfl
@[simp] theorem startRun_pc : s.startRun.pc = s.pc := rfl
@[simp] theorem startRun_fl : s.startRun.fl = s.fl := rfl
@[simp] theorem startRun_halted : s.startRun.halted = false := rfl
@[simp] theorem startRun_haltCause : s.startRun.haltCause = .none := rfl
@[simp] theorem startRun_mem : s.startRun.mem = s.mem := rfl
@[simp] theorem startRun_trace : s.startRun.trace = s.trace := rfl
@[simp] theorem startRun_ticks : s.startRun.ticks = s.ticks := rfl
@[simp] theorem startRun_tickNo : s.startRun.tickNo = s.tickNo := rfl
@[simp] theorem startRun_peek (q : Nat) : s.startRun.peek q = s.peek q := rfl

/-! ### `beginStep` -/

@[simp] theorem beginStep_regs : s.beginStep.regs = s.regs.set tickReg (if s.tickDraw then 0#8 else s.x tickReg) := rfl
@[simp] theorem beginStep_pc : s.beginStep.pc = s.pc := rfl
@[simp] theorem beginStep_fl : s.beginStep.fl = s.fl := rfl
@[simp] theorem beginStep_halted : s.beginStep.halted = s.halted := rfl
@[simp] theorem beginStep_haltCause : s.beginStep.haltCause = s.haltCause := rfl
@[simp] theorem beginStep_mem : s.beginStep.mem = s.mem := rfl
@[simp] theorem beginStep_trace : s.beginStep.trace = if s.tickDraw then s.trace ++ [.diag .tick (some 0)] else s.trace := rfl
@[simp] theorem beginStep_ticks : s.beginStep.ticks = s.ticks.tail := rfl
@[simp] theorem beginStep_tickNo : s.beginStep.tickNo = s.tickNo + 1 := rfl
@[simp] theorem beginStep_peek (q : Nat) : s.beginStep.peek q = s.peek q := rfl

end Sys2Proof.Machine
end

