-- ==== Sys2Proof/Laws/Ops.lean ====
section
/-! SUPPORT. What the shared operations over registers, memory, flags and operands can do, said once. -/

namespace Sys2Proof.Machine

variable (s : State)

/-! ### Registers -/

/-- The stack pointer is spelt `s.x spReg` in every lemma. -/
@[simp] theorem sp_eq : s.sp = s.x spReg := rfl

@[simp] theorem spInit_toNat : spInit.toNat = 244 := rfl

@[simp] theorem setReg_x (r q : Reg) (v : Byte) : (s.setReg r v).x q = if r = q then v else s.x q := by
  simp [State.setReg, State.x, Vector.getElem_set, Fin.ext_iff]

theorem setReg_x_same (r : Reg) (v : Byte) : (s.setReg r v).x r = v := by simp

/-- Writing the value a register holds changes nothing. -/
theorem regs_set_x (r : Reg) : s.regs.set r (s.x r) = s.regs := by
  simp [State.x]

@[simp] theorem startRun_x (q : Reg) : s.startRun.x q = if spReg = q then spInit else s.x q :=
  setReg_x s spReg q spInit

/-- The registers after the tick: only R6 can change, to 0 (R112 of 40_execution_loop.md). -/
@[simp] theorem beginStep_x (q : Reg) :
    s.beginStep.x q = if tickReg = q ∧ s.tickDraw = true then 0#8 else s.x q := by
  have h := setReg_x s tickReg q (if s.tickDraw then 0#8 else s.x tickReg)
  have e : s.beginStep.x q = (s.setReg tickReg (if s.tickDraw then 0#8 else s.x tickReg)).x q := rfl
  rw [e, h]
  by_cases hq : tickReg = q
  · subst hq
    cases s.tickDraw <;> simp
  · simp [hq]

/-- Two states with the same registers under `x` have the same register file. -/
theorem regs_ext {s t : State} (h : ∀ r, s.x r = t.x r) : s.regs = t.regs := by
  apply Vector.ext
  intro i hi
  exact h ⟨i, hi⟩

/-! ### `trunc8` -/

/-- `trunc8` on a natural is the low byte (R8 of 00_scope.md). -/
@[simp] theorem trunc8_natCast (n : Nat) : trunc8 (n : Int) = BitVec.ofNat 8 n := by
  simp [trunc8]

/-- `trunc8` is `v mod 256` (R8 of 00_scope.md). -/
theorem trunc8_toNat (v : Int) : ((trunc8 v).toNat : Int) = v % 256 := by
  simp only [trunc8, BitVec.toNat_ofInt]
  omega

/-- `trunc8` of a value in range is that value. -/
theorem trunc8_toNat_of_lt {n : Nat} (h : n < 256) : (trunc8 (n : Int)).toNat = n := by
  simp [Nat.mod_eq_of_lt h]

/-! ### Stack pointer arithmetic -/

/-- Decrementing SP is subtraction modulo 256 (D3). -/
theorem decSp_eq : s.decSp = s.setReg spReg (s.x spReg - 1#8) := by
  have h : trunc8 ((s.sp.toNat : Int) - 1) = s.x spReg - 1#8 := by
    apply BitVec.eq_of_toNat_eq
    have := trunc8_toNat ((s.sp.toNat : Int) - 1)
    have hs : s.sp = s.x spReg := rfl
    rw [hs] at this ⊢
    bv_omega
  rw [State.decSp, h]

/-- Incrementing SP is addition modulo 256 (D3). -/
theorem incSp_eq : s.incSp = s.setReg spReg (s.x spReg + 1#8) := by
  have h : trunc8 ((s.sp.toNat : Int) + 1) = s.x spReg + 1#8 := by
    apply BitVec.eq_of_toNat_eq
    have := trunc8_toNat ((s.sp.toNat : Int) + 1)
    have hs : s.sp = s.x spReg := rfl
    rw [hs] at this ⊢
    bv_omega
  rw [State.incSp, h]

/-! ### Memory -/

/-- MemRead in range has the value and changes nothing (R51 of 20_memory.md). -/
theorem memRead_of_lt {a : Nat} (h : a < 256) : s.memRead a = (some (s.mem.read a), s) := if_pos h

/-- MemRead out of range has no value and reports the address (R51 of 20_memory.md). -/
theorem memRead_of_ge {a : Nat} (h : 256 ≤ a) : s.memRead a = (none, s.emitDiag .addrError (some a)) :=
  if_neg (Nat.not_lt.mpr h)

/-- MemWrite in range writes the cell (R52 of 20_memory.md). -/
theorem memWrite_of_lt {a : Nat} (v : Byte) (h : a < 256) : s.memWrite a v = { s with mem := s.mem.write a v } :=
  if_pos h

/-- MemWrite out of range only reports the address (R52 of 20_memory.md). -/
theorem memWrite_of_ge {a : Nat} (v : Byte) (h : 256 ≤ a) : s.memWrite a v = s.emitDiag .addrError (some a) :=
  if_neg (Nat.not_lt.mpr h)

/-- A data read is a MemRead that has a value and emits nothing (R54 of 20_memory.md). -/
theorem memRead_byte (a : Byte) : s.memRead a.toNat = (some (s.loadByte a), s) := memRead_of_lt s a.isLt

theorem peek_of_lt {a : Nat} (h : a < 256) : s.peek a = some (s.mem.read a) := if_pos h

theorem peek_of_ge {a : Nat} (h : 256 ≤ a) : s.peek a = none := if_neg (Nat.not_lt.mpr h)

/-- A data read gives the byte an observer sees. -/
theorem peek_byte (a : Byte) : s.peek a.toNat = some (s.loadByte a) := peek_of_lt s a.isLt

theorem storeByte_eq (a v : Byte) : s.storeByte a v = { s with mem := s.mem.write a.toNat v } :=
  memWrite_of_lt s v a.isLt

@[simp] theorem storeByte_regs (a v : Byte) : (s.storeByte a v).regs = s.regs := by rw [storeByte_eq]
@[simp] theorem storeByte_pc (a v : Byte) : (s.storeByte a v).pc = s.pc := by rw [storeByte_eq]
@[simp] theorem storeByte_fl (a v : Byte) : (s.storeByte a v).fl = s.fl := by rw [storeByte_eq]
@[simp] theorem storeByte_halted (a v : Byte) : (s.storeByte a v).halted = s.halted := by rw [storeByte_eq]
@[simp] theorem storeByte_haltCause (a v : Byte) : (s.storeByte a v).haltCause = s.haltCause := by rw [storeByte_eq]
@[simp] theorem storeByte_mem (a v : Byte) : (s.storeByte a v).mem = s.mem.write a.toNat v := by rw [storeByte_eq]
@[simp] theorem storeByte_trace (a v : Byte) : (s.storeByte a v).trace = s.trace := by rw [storeByte_eq]
@[simp] theorem storeByte_ticks (a v : Byte) : (s.storeByte a v).ticks = s.ticks := by rw [storeByte_eq]
@[simp] theorem storeByte_tickNo (a v : Byte) : (s.storeByte a v).tickNo = s.tickNo := by rw [storeByte_eq]
@[simp] theorem storeByte_x (a v : Byte) (q : Reg) : (s.storeByte a v).x q = s.x q := by rw [storeByte_eq]; rfl

/-- A store changes exactly its own cell (R57 of 20_memory.md). -/
@[simp] theorem storeByte_peek (a v : Byte) (q : Nat) :
    (s.storeByte a v).peek q = if a.toNat = q then some v else s.peek q := by
  have ha := a.isLt
  simp only [State.peek, storeByte_mem, Memory.read_write]
  by_cases h : a.toNat = q
  · subst h
    simp [ha]
  · simp only [if_neg h]

/-- A store keeps the canonical form of memory. -/
theorem storeByte_wf (a v : Byte) (h : s.mem.wf) : (s.storeByte a v).mem.wf := by
  rw [storeByte_mem]
  exact Memory.write_wf v a.isLt h

/-- `MemWrite` at any address keeps the canonical form of memory. -/
theorem memWrite_wf (a : Nat) (v : Byte) (h : s.mem.wf) : (s.memWrite a v).mem.wf := by
  unfold State.memWrite
  split
  · exact Memory.write_wf v ‹_› h
  · exact h

/-! ### Operands -/

@[simp] theorem regOperand_eq (r : Reg) : s.regOperand r = s.x r := rfl
@[simp] theorem immOperand_eq (b : Byte) : immOperand b = b := rfl
@[simp] theorem regAddress_eq (r : Reg) : s.regAddress r = s.x r := rfl
@[simp] theorem indirectAddress_eq (a : Byte) : s.indirectAddress a = s.loadByte a := rfl
@[simp] theorem jumpTarget_eq (r : Reg) : s.jumpTarget r = (s.x r).toNat := rfl

/-- The return address is the low byte of `pc + 2` (R192 of 43_stack_and_subroutine.md). -/
theorem returnAddress_eq : s.returnAddress = BitVec.ofNat 8 (s.pc + 2) := by
  have : ((s.pc : Int) + 2) = ((s.pc + 2 : Nat) : Int) := by push_cast; rfl
  rw [State.returnAddress, this, trunc8_natCast]

/-! ### Flags -/

/-- A comparison answers exactly one of the three values (R167 of 42_alu.md). -/
theorem compareFlags_cases (va vb : Byte) :
    (va = vb ∧ compareFlags va vb = 1#8) ∨ (va > vb ∧ compareFlags va vb = 2#8) ∨
      (va < vb ∧ compareFlags va vb = 4#8) := by
  unfold compareFlags
  by_cases h1 : va.toNat = vb.toNat
  · exact .inl ⟨BitVec.eq_of_toNat_eq h1, by rw [if_pos h1]; rfl⟩
  · by_cases h2 : va.toNat > vb.toNat
    · exact .inr (.inl ⟨h2, by rw [if_neg h1, if_pos h2]; rfl⟩)
    · refine .inr (.inr ⟨?_, by rw [if_neg h1, if_neg h2]; rfl⟩)
      show va.toNat < vb.toNat
      omega

end Sys2Proof.Machine
end

