-- ==== Sys2Proof/Laws/Alu.lean ====
section
/-! SUPPORT. What the ALU answers, operation by operation, and what each meaning of 42_alu.md comes to. -/

namespace Sys2Proof.Machine

/-- The ALU has every operation, so it never answers `unsupported` (R107 of 40_execution_loop.md). -/
theorem aluTable_complete (op : AluOp) : op ∈ aluTable := by cases op <;> decide

/-- The table test of the ALU always passes. -/
@[simp] theorem alu_eq (op : AluOp) (va vb : Byte) : alu op va vb = aluCompute op va vb :=
  if_pos (aluTable_complete op)

/-! ### The table of R151 of 42_alu.md, as operations on bytes -/

theorem alu_add (va vb : Byte) : aluCompute .add va vb = .value (va + vb) := by
  have : (va.toNat : Int) + vb.toNat = ((va.toNat + vb.toNat : Nat) : Int) := by push_cast; rfl
  simp only [aluCompute, this, trunc8_natCast]
  congr 1

theorem alu_sub (va vb : Byte) : aluCompute .sub va vb = .value (va - vb) := by
  simp only [aluCompute]
  congr 1
  apply BitVec.eq_of_toNat_eq
  have := trunc8_toNat ((va.toNat : Int) - vb.toNat)
  bv_omega

theorem alu_mul (va vb : Byte) : aluCompute .mul va vb = .value (va * vb) := by
  have : (va.toNat : Int) * vb.toNat = ((va.toNat * vb.toNat : Nat) : Int) := by push_cast; rfl
  simp only [aluCompute, this, trunc8_natCast]
  congr 1

theorem alu_div (va vb : Byte) (h : vb ≠ 0#8) : aluCompute .div va vb = .value (va / vb) := by
  simp only [aluCompute, if_neg h, trunc8_natCast]
  congr 1
  apply BitVec.eq_of_toNat_eq
  rw [BitVec.toNat_ofNat, BitVec.toNat_udiv]
  exact Nat.mod_eq_of_lt (Nat.lt_of_le_of_lt (Nat.div_le_self _ _) va.isLt)

theorem alu_mod (va vb : Byte) (h : vb ≠ 0#8) : aluCompute .mod va vb = .value (va % vb) := by
  simp only [aluCompute, if_neg h, trunc8_natCast]
  congr 1
  apply BitVec.eq_of_toNat_eq
  rw [BitVec.toNat_ofNat, BitVec.toNat_umod]
  exact Nat.mod_eq_of_lt (Nat.lt_of_le_of_lt (Nat.mod_le _ _) va.isLt)

theorem alu_div_zero (va : Byte) : aluCompute .div va 0#8 = .divZero := rfl

theorem alu_mod_zero (va : Byte) : aluCompute .mod va 0#8 = .divZero := rfl

theorem alu_and (va vb : Byte) : aluCompute .and va vb = .value (va &&& vb) := rfl

theorem alu_or (va vb : Byte) : aluCompute .or va vb = .value (va ||| vb) := rfl

theorem alu_xor (va vb : Byte) : aluCompute .xor va vb = .value (va ^^^ vb) := rfl

theorem alu_not (va vb : Byte) : aluCompute .not va vb = .value (~~~va) := by
  simp only [aluCompute]
  congr 1
  apply BitVec.eq_of_toNat_eq
  have := trunc8_toNat (255 - (va.toNat : Int))
  have := va.isLt
  simp only [BitVec.toNat_not]
  omega

theorem alu_shl (va vb : Byte) : aluCompute .shl va vb = .value (va <<< vb.toNat) := by
  simp only [aluCompute, trunc8_natCast]
  congr 1

theorem alu_shr (va vb : Byte) : aluCompute .shr va vb = .value (va >>> vb.toNat) := by
  simp only [aluCompute, trunc8_natCast]
  congr 1
  apply BitVec.eq_of_toNat_eq
  rw [BitVec.toNat_ofNat, BitVec.toNat_ushiftRight]
  exact Nat.mod_eq_of_lt (Nat.lt_of_le_of_lt (Nat.shiftRight_le _ _) va.isLt)

/-- The ALU never answers `unsupported`, and answers `divZero` only for DIV and MOD by 0. -/
theorem aluCompute_cases (op : AluOp) (va vb : Byte) :
    (∃ r, aluCompute op va vb = .value r) ∨
      ((op = .div ∨ op = .mod) ∧ vb = 0#8 ∧ aluCompute op va vb = .divZero) := by
  by_cases h : vb = 0#8 <;> cases op <;> simp [aluCompute, h]

/-- What the two-register handler can do: write `x[a]` and advance by 3, or stop DIV_BY_ZERO (R152). -/
theorem aluRR_cases (s : State) (op : AluOp) (a b : Reg) (opcode : Byte) :
    (∃ r, aluCompute op (s.x a) (s.x b) = .value r ∧ s.aluRR op a b opcode = (s.setReg a r).advance 3) ∨
      ((op = .div ∨ op = .mod) ∧ s.x b = 0#8 ∧
        s.aluRR op a b opcode = s.stopWith .divByZero (some s.pc) .divByZero) := by
  rcases aluCompute_cases op (s.x a) (s.x b) with ⟨r, h⟩ | ⟨hop, hb, h⟩
  · exact .inl ⟨r, h, by simp [State.aluRR, State.aluFinish, h]⟩
  · exact .inr ⟨hop, hb, by simp [State.aluRR, State.aluFinish, h]⟩

/-! ### The meanings -/

variable (s : State) (a b : Reg)

theorem execAdd_eq : execAdd a b s = .next ((s.setReg a (s.x a + s.x b)).advance 3) := by
  simp [execAdd, State.aluRR, State.aluFinish, alu_add]

theorem execSub_eq : execSub a b s = .next ((s.setReg a (s.x a - s.x b)).advance 3) := by
  simp [execSub, State.aluRR, State.aluFinish, alu_sub]

theorem execMul_eq : execMul a b s = .next ((s.setReg a (s.x a * s.x b)).advance 3) := by
  simp [execMul, State.aluRR, State.aluFinish, alu_mul]

theorem execDiv_eq : execDiv a b s =
    .next (if s.x b = 0#8 then s.stopWith .divByZero (some s.pc) .divByZero
      else (s.setReg a (s.x a / s.x b)).advance 3) := by
  by_cases h : s.x b = 0#8
  · simp [execDiv, State.aluRR, State.aluFinish, h, alu_div_zero]
  · simp [execDiv, State.aluRR, State.aluFinish, h, alu_div]

theorem execMod_eq : execMod a b s =
    .next (if s.x b = 0#8 then s.stopWith .divByZero (some s.pc) .divByZero
      else (s.setReg a (s.x a % s.x b)).advance 3) := by
  by_cases h : s.x b = 0#8
  · simp [execMod, State.aluRR, State.aluFinish, h, alu_mod_zero]
  · simp [execMod, State.aluRR, State.aluFinish, h, alu_mod]

theorem execAnd_eq : execAnd a b s = .next ((s.setReg a (s.x a &&& s.x b)).advance 3) := by
  simp [execAnd, State.aluRR, State.aluFinish, alu_and]

theorem execOr_eq : execOr a b s = .next ((s.setReg a (s.x a ||| s.x b)).advance 3) := by
  simp [execOr, State.aluRR, State.aluFinish, alu_or]

theorem execXor_eq : execXor a b s = .next ((s.setReg a (s.x a ^^^ s.x b)).advance 3) := by
  simp [execXor, State.aluRR, State.aluFinish, alu_xor]

theorem execShl_eq : execShl a b s = .next ((s.setReg a (s.x a <<< (s.x b).toNat)).advance 3) := by
  simp [execShl, State.aluRR, State.aluFinish, alu_shl]

theorem execShr_eq : execShr a b s = .next ((s.setReg a (s.x a >>> (s.x b).toNat)).advance 3) := by
  simp [execShr, State.aluRR, State.aluFinish, alu_shr]

theorem execNot_eq : execNot a s = .next ((s.setReg a (~~~(s.x a))).advance 2) := by
  simp [execNot, State.aluR, State.aluFinish, alu_not]

theorem execAddi_eq (v : Byte) : execAddi a v s = .next ((s.setReg a (s.x a + v)).advance 3) := by
  have : ((s.x a).toNat : Int) + v.toNat = (((s.x a).toNat + v.toNat : Nat) : Int) := by push_cast; rfl
  simp only [execAddi, State.addToReg, regOperand_eq, immOperand_eq, this, trunc8_natCast]
  rfl

theorem execInc_eq : execInc a s = .next ((s.setReg a (s.x a + 1#8)).advance 2) := by
  have : ((s.x a).toNat : Int) + 1 = (((s.x a).toNat + 1 : Nat) : Int) := by push_cast; rfl
  simp only [execInc, State.addToReg, regOperand_eq, this, trunc8_natCast]
  rfl

theorem execDec_eq : execDec a s = .next ((s.setReg a (s.x a - 1#8)).advance 2) := by
  have h : trunc8 (((s.x a).toNat : Int) + -1) = s.x a - 1#8 := by
    apply BitVec.eq_of_toNat_eq
    have := trunc8_toNat (((s.x a).toNat : Int) + -1)
    bv_omega
  simp only [execDec, State.addToReg, regOperand_eq, h]

theorem execCmp_eq : execCmp a b s = .next ((s.setFl (compareFlags (s.x a) (s.x b))).advance 3) := rfl

end Sys2Proof.Machine
end

