-- ==== Sys2Proof/Laws/Bus.lean ====
section
/-! SUPPORT. What applying a request does to memory, so that no proof unfolds a request. -/

namespace Sys2Proof.Machine

@[simp] theorem readRequest_apply (s : State) (a : Nat) (m : Memory) : (readRequest s a).apply m = m := rfl

/-- A write request at an address of the space writes its cell. -/
theorem writeRequest_apply {a : Nat} (v : Byte) (m : Memory) (h : a < 256) : (writeRequest a v).apply m = m.write a v :=
  if_pos h

/-- A write request at an 8-bit address is always in range (R54 of 20_memory.md). -/
@[simp] theorem writeRequest_apply_byte (a v : Byte) (m : Memory) : (writeRequest a.toNat v).apply m = m.write a.toNat v :=
  writeRequest_apply v m a.isLt

@[simp] theorem readRequest_wdata (s : State) (a : Nat) : (readRequest s a).wdata = none := rfl
@[simp] theorem readRequest_we (s : State) (a : Nat) : (readRequest s a).we = false := rfl
@[simp] theorem readRequest_addr (s : State) (a : Nat) : (readRequest s a).addr = a := rfl
@[simp] theorem readRequest_rdata (s : State) (a : Nat) : (readRequest s a).rdata = s.peek a := rfl
@[simp] theorem writeRequest_wdata (a : Nat) (v : Byte) : (writeRequest a v).wdata = some v := rfl
@[simp] theorem writeRequest_we (a : Nat) (v : Byte) : (writeRequest a v).we = true := rfl
@[simp] theorem writeRequest_addr (a : Nat) (v : Byte) : (writeRequest a v).addr = a := rfl

/-- An address is reported out of range exactly from 256 on. -/
@[simp] theorem readRequest_err (s : State) (a : Nat) : (readRequest s a).err = true ↔ 256 ≤ a :=
  decide_eq_true_iff

/-- A write to an 8-bit address is never out of range. -/
@[simp] theorem writeRequest_err_byte (a v : Byte) : (writeRequest a.toNat v).err = false :=
  decide_eq_false (by have := a.isLt; simp; omega)

/-- Requests without data to write leave memory alone. -/
theorem foldl_apply_reads (l : List MemRequest) (m : Memory) (h : ∀ q ∈ l, q.wdata = none) :
    l.foldl MemRequest.apply m = m := by
  induction l generalizing m with
  | nil => rfl
  | cons q l ih =>
    rw [List.foldl_cons, show q.apply m = m by simp [MemRequest.apply, h q (by simp)]]
    exact ih m fun r hr => h r (by simp [hr])

end Sys2Proof.Machine
end

