-- ==== Sys2Proof/Laws/Control.lean ====
section
/-! SUPPORT. What the jumps and the data movements come to. -/

namespace Sys2Proof.Machine

variable (s : State) (a : Reg)

theorem advance_eq_setPc (w : Nat) : s.advance w = s.setPc (s.pc + w) := rfl

theorem execJmp_eq : execJmp a s = .next (s.setPc (s.x a).toNat) := rfl

theorem execJeq_eq : execJeq a s = .next (s.setPc (if s.fl.getLsbD 0 = true then (s.x a).toNat else s.pc + 2)) := by
  rcases h : s.fl.getLsbD 0 with _ | _ <;> simp only [execJeq, State.jumpIf, State.flagE, Config.flagE, h] <;> rfl

theorem execJne_eq : execJne a s = .next (s.setPc (if s.fl.getLsbD 0 = true then s.pc + 2 else (s.x a).toNat)) := by
  rcases h : s.fl.getLsbD 0 with _ | _ <;> simp only [execJne, State.jumpIf, State.flagE, Config.flagE, h] <;> rfl

theorem execLd_eq (b : Reg) : execLd a b s = .next ((s.setReg a (s.loadByte (s.x b))).advance 3) := rfl

theorem execSt_eq (m : Byte) (b : Reg) : execSt m b s =
    .next ((s.storeByte (s.loadByte m) (s.x b)).advance 3) := rfl

end Sys2Proof.Machine
end

