-- ==== Sys2Proof/Laws/Decode.lean ====
section
/-! SUPPORT. The opcode map, register fields, and when the decoder accepts operand bytes. -/

namespace Sys2Proof

/-! ### The opcode map -/

/-- In a list of pairs with distinct keys, the search for the key of an entry finds that entry. -/
theorem find?_key {α : Type} (l : List (Byte × α)) (h : (l.map Prod.fst).Nodup) {e : Byte × α} (he : e ∈ l) :
    l.find? (fun d => d.1 == e.1) = some e := by
  induction l with
  | nil => cases he
  | cons d l ih =>
    rw [List.map_cons, List.nodup_cons] at h
    rcases List.mem_cons.mp he with rfl | he
    · simp
    · have hne : d.1 ≠ e.1 := fun hd => h.1 (hd ▸ List.mem_map_of_mem he)
      rw [List.find?_cons_of_neg (by simpa using hne)]
      exact ih h.2 he

/-- Under a map without duplicates every entry of the dispatch table is found by its byte. -/
theorem OpcodeMap.lookup_of_mem {m : OpcodeMap} (hm : m.Distinct) {e : Byte × Format} (he : e ∈ m.dispatchTable) :
    m.lookup e.1 = some e.2 := by
  rw [OpcodeMap.lookup, find?_key m.dispatchTable hm he]
  rfl

/-- What a lookup finds is an entry of the dispatch table. -/
theorem OpcodeMap.mem_of_lookup {m : OpcodeMap} {op : Byte} {f : Format} (h : m.lookup op = some f) :
    (op, f) ∈ m.dispatchTable := by
  rw [OpcodeMap.lookup, Option.map_eq_some_iff] at h
  obtain ⟨e, he, rfl⟩ := h
  have hk : e.1 = op := by simpa using List.find?_some he
  exact hk ▸ List.mem_of_find?_eq_some he

/-- Every value of `Config.opcAddiIndex` names a candidate. -/
theorem freeOpcodes_length : freeOpcodes.length = 223 := by decide +kernel

/-- `OPC_ADDI` is one of the bytes that no other opcode uses (R79 of 30_encoding.md). -/
theorem opcAddi_mem : opcAddi ∈ freeOpcodes := by
  have h : Config.opcAddiIndex.val < freeOpcodes.length := by
    rw [freeOpcodes_length]
    exact Config.opcAddiIndex.isLt
  rw [opcAddi, List.getD_eq_getElem _ _ h]
  exact List.getElem_mem h

/-- `OPC_ADDI` differs from every other opcode of the map (R79 of 30_encoding.md). -/
theorem opcAddi_ne {e : Byte × Format} (h : e ∈ opcodeMap.fixedEntries) : e.1 ≠ opcAddi := by
  have := (List.mem_filter.mp opcAddi_mem).2
  rw [List.all_eq_true] at this
  simpa using this e h

/-- The lookup of `OPC_ADDI` finds ADDI. -/
theorem lookup_opcAddi : opcodeMap.lookup opcAddi = some (.f2RI .addi) := by
  have h : opcodeMap.fixedEntries.find? (fun e => e.1 == opcAddi) = none := by
    rw [List.find?_eq_none]
    intro e he
    simpa using opcAddi_ne he
  rw [OpcodeMap.lookup, OpcodeMap.dispatchTable, List.find?_append, h]
  simp [show opcodeMap.addi = opcAddi from rfl]

/-- A byte that a fixed opcode uses is looked up among the fixed entries. -/
theorem lookup_of_fixed {m : OpcodeMap} {op : Byte} {e : Byte × Format}
    (h : m.fixedEntries.find? (fun e => e.1 == op) = some e) : m.lookup op = some e.2 := by
  rw [OpcodeMap.lookup, OpcodeMap.dispatchTable, List.find?_append, h]
  rfl

/-- The lookup of a byte that is neither a fixed opcode nor ADDI's finds nothing. -/
theorem lookup_unknown {m : OpcodeMap} {op : Byte} (h : m.fixedEntries.find? (fun e => e.1 == op) = none)
    (ha : m.addi ≠ op) : m.lookup op = none := by
  rw [OpcodeMap.lookup, OpcodeMap.dispatchTable, List.find?_append, h]
  simp [ha]

/-! ### Register fields -/

/-- The field of a register index decodes to it. -/
@[simp] theorem regField_regByte (r : Reg) : regField (regByte r) = some r := by
  revert r
  decide

/-- A register field is accepted exactly when it is below 8, and then it names that register (R73 of
30_encoding.md). -/
theorem regField_eq_some {b : Byte} {r : Reg} : regField b = some r ↔ b = regByte r := by
  constructor
  · intro h
    unfold regField at h
    split at h
    · injection h with h
      subst h
      simp [regByte]
    · cases h
  · rintro rfl
    exact regField_regByte r

theorem regField_eq_none {b : Byte} : regField b = none ↔ 8 ≤ b.toNat := by
  unfold regField
  split <;> simp <;> omega

/-! ### Operand bytes -/

/-- The check of kind R accepts a byte exactly when it decodes to a register. -/
theorem accepts_R (b : Byte) : OperandKind.R.accepts b = (regField b).isSome := by
  show decide (b.toNat < 8) = _
  by_cases h : b.toNat < 8 <;> simp [regField, h]

@[simp] theorem accepts_I (b : Byte) : OperandKind.I.accepts b = true := rfl
@[simp] theorem accepts_M (b : Byte) : OperandKind.M.accepts b = true := rfl
@[simp] theorem accepts_U (b : Byte) : OperandKind.U.accepts b = true := rfl

/-- A format accepts its operand bytes exactly when they are well formed: the decoder's own check agrees with
`fieldsWellFormed` (R73, R105). -/
theorem decodeFields_ok_iff_wellFormed (f : Format) (fields : List Byte) (hl : fields.length = f.kinds.length) :
    (∃ i, f.decodeFields fields = .ok i []) ↔ fieldsWellFormed f.kinds fields = true := by
  cases f <;> rcases fields with _ | ⟨a, _ | ⟨b, _ | ⟨c, rest⟩⟩⟩ <;> simp [Format.kinds] at hl <;>
    simp only [Format.decodeFields, Format.kinds, fieldsWellFormed, accepts_R, accepts_I, accepts_M, accepts_U]
  case f0 | f1U => simp
  case f1R | f2RI => cases regField a <;> simp
  case f2RR => cases regField a <;> cases regField b <;> simp
  case f2MR => cases regField b <;> simp

/-- The dispatch table has, for every instruction, an entry at its opcode byte that makes it of its operand bytes. -/
theorem OpcodeMap.entry_of_instr (m : OpcodeMap) (i : Instr) : ∃ f, (m.opcodeOf i, f) ∈ m.dispatchTable ∧
    f.kinds = i.kinds ∧ ∀ rest, f.decodeFields (m.operandsOf i ++ rest) = .ok i rest := by
  cases i <;> refine ⟨_, by
    repeat first
      | exact List.Mem.head _
      | apply List.Mem.tail, rfl, fun rest => ?_⟩ <;>
    simp [Format.decodeFields, OpcodeMap.operandsOf, OpcodeMap.encode]

/-- The width that the opcode byte decides is the instruction's own (R70, R77). -/
theorem lookup_opcodeOf_width {m : OpcodeMap} (hm : m.Distinct) (i : Instr) : m.widthOf (m.opcodeOf i) = i.width := by
  obtain ⟨f, hf, hk, -⟩ := m.entry_of_instr i
  rw [OpcodeMap.widthOf, OpcodeMap.lookup_of_mem hm hf]
  simp [Format.width, Instr.width, hk]

end Sys2Proof
end

