-- ==== Sys2Proof/Laws/Fetch.lean ====
section
/-! SUPPORT. What the fetch reads, and what fetch and decode can come to: one case lemma that the claims about a
step cite. -/

namespace Sys2Proof.Machine

variable (m : OpcodeMap) (s : State)

/-! ### The tick -/

theorem tickDraw_cons {d : Bool} {ds : List Bool} (h : s.ticks = d :: ds) : s.tickDraw = d := by
  rw [State.tickDraw, h]

/-- Without a tick only the draw is used up. -/
theorem beginStep_noTick (h : s.tickDraw = false) :
    s.beginStep = { s with ticks := s.ticks.tail, tickNo := s.tickNo + 1 } := by
  simp [State.beginStep, h, regs_set_x]

/-- With a tick, `x[6] <- 0; emit Diag(TICK, 0)` (R112 of 40_execution_loop.md). -/
theorem beginStep_tick (h : s.tickDraw = true) :
    s.beginStep = { (s.setReg tickReg 0#8).emitDiag .tick (some 0) with
      ticks := s.ticks.tail, tickNo := s.tickNo + 1 } := by
  simp [State.beginStep, h, State.setReg, State.emitDiag, State.emit]

/-! ### Reading the bytes -/

/-- Operand bytes that all lie in memory are read, and nothing changes. -/
theorem fetchOperands_fits (n a : Nat) (h : a + n ≤ 256) :
    s.fetchOperands n a = ((List.range' a n).map s.mem.read, s) := by
  induction n generalizing a with
  | zero => rfl
  | succ n ih =>
    rw [State.fetchOperands, memRead_of_lt s (by omega)]
    simp [ih (a + 1) (by omega), List.range'_succ]

/-- Operand bytes that run past the end are read up to it, and address 256 is reported (R104 of
40_execution_loop.md). -/
theorem fetchOperands_runs_out (n a : Nat) (ha : a ≤ 256) (h : 256 < a + n) :
    s.fetchOperands n a = ((List.range' a (256 - a)).map s.mem.read, s.emitDiag .addrError (some 256)) := by
  induction n generalizing a with
  | zero => omega
  | succ n ih =>
    rcases Nat.lt_or_ge a 256 with hlt | hge
    · rw [State.fetchOperands, memRead_of_lt s hlt]
      have : 256 - a = (256 - (a + 1)) + 1 := by omega
      simp [ih (a + 1) (by omega) (by omega), this, List.range'_succ]
    · obtain rfl : a = 256 := by omega
      rw [State.fetchOperands, memRead_of_ge s (Nat.le_refl _)]
      rfl

/-! ### The decoder on as many bytes as the opcode asks for -/

/-- Too few operand bytes. -/
theorem decodeFields_truncated (f : Format) (fields : List Byte) (h : fields.length < f.kinds.length) :
    f.decodeFields fields = .truncated := by
  cases f <;> rcases fields with _ | ⟨a, _ | ⟨b, rest⟩⟩ <;> simp [Format.kinds] at h <;> rfl

/-- Just enough operand bytes: an instruction with nothing left over, or a register field that is 8 or more. -/
theorem decodeFields_exact (f : Format) (fields : List Byte) (h : fields.length = f.kinds.length) :
    (∃ i, f.decodeFields fields = .ok i []) ∨
      (∃ v, v ∈ fields ∧ 8 ≤ v.toNat ∧ f.decodeFields fields = .badRegister v) := by
  cases f <;> rcases fields with _ | ⟨a, _ | ⟨b, _ | ⟨c, rest⟩⟩⟩ <;> simp [Format.kinds] at h <;>
    simp only [Format.decodeFields]
  case f0 | f1U => simp
  case f1R | f2RI => rcases ha : regField a with _ | r <;> simp [← regField_eq_none, ha]
  case f2RR =>
    rcases ha : regField a with _ | r <;> rcases hb : regField b with _ | q <;> simp [← regField_eq_none, ha, hb]
  case f2MR => rcases hb : regField b with _ | r <;> simp [← regField_eq_none, hb]

/-! ### What fetch and decode can come to -/

/-- The bytes at pc that an opcode of this width asks for. -/
def State.bytesAtPc (s : State) (width : Nat) : List Byte := (List.range' s.pc width).map s.mem.read

/-- An opcode fetch outside memory (R102 of 40_execution_loop.md). -/
theorem fetchDecode_pastEnd (h : 256 ≤ s.pc) :
    s.fetchDecode m = .stopped ((s.emitDiag .addrError (some s.pc)).stopWith .unknownOpcode none .unknownOpcode) := by
  rw [State.fetchDecode, State.fetchBytes, memRead_of_ge s h]
  rfl

/-- An opcode that is not in the dispatch table (R103 of 40_execution_loop.md). -/
theorem fetchDecode_unknown (h : s.pc < 256) (hl : m.lookup (s.mem.read s.pc) = none) :
    s.fetchDecode m =
      .stopped (s.stopWith .unknownOpcode (some (s.mem.read s.pc).toNat) .unknownOpcode) := by
  have hw : m.widthOf (s.mem.read s.pc) = 1 := by simp [OpcodeMap.widthOf, hl]
  rw [State.fetchDecode, State.fetchBytes, memRead_of_lt s h]
  simp [hw, State.fetchOperands, OpcodeMap.decode, hl]

/-- An operand byte outside memory (R104 of 40_execution_loop.md). -/
theorem fetchDecode_truncated (h : s.pc < 256) {f : Format} (hl : m.lookup (s.mem.read s.pc) = some f)
    (hw : 256 < s.pc + f.width) :
    s.fetchDecode m = .stopped
      ((s.emitDiag .addrError (some 256)).stopWith .operandFault (some s.pc) .operandFault) := by
  have hwo : m.widthOf (s.mem.read s.pc) - 1 = f.kinds.length := by simp [OpcodeMap.widthOf, hl, Format.width]
  have hk : f.width = 1 + f.kinds.length := rfl
  rw [State.fetchDecode, State.fetchBytes, memRead_of_lt s h]
  simp only [hwo, fetchOperands_runs_out s f.kinds.length (s.pc + 1) (by omega) (by omega), OpcodeMap.decode, hl]
  rw [decodeFields_truncated f _ (by simp; omega)]
  rfl

/-- All bytes of the instruction lie in memory: the decoder decides (R105, R106 of 40_execution_loop.md). -/
theorem fetchDecode_fits (h : s.pc < 256) {f : Format} (hl : m.lookup (s.mem.read s.pc) = some f)
    (hw : s.pc + f.width ≤ 256) :
    (∃ i, m.decode (s.bytesAtPc f.width) = .ok i [] ∧ s.fetchDecode m = .run i s) ∨
      (∃ v, 8 ≤ v.toNat ∧ m.decode (s.bytesAtPc f.width) = .badRegister v ∧
        s.fetchDecode m = .stopped (s.stopWith .badRegister (some v.toNat) .badRegister)) := by
  have hk : f.width = f.kinds.length + 1 := Nat.add_comm _ _
  have hwo : m.widthOf (s.mem.read s.pc) - 1 = f.kinds.length := by simp [OpcodeMap.widthOf, hl, Format.width]
  have hb : s.bytesAtPc f.width =
      s.mem.read s.pc :: (List.range' (s.pc + 1) f.kinds.length).map s.mem.read := by
    rw [State.bytesAtPc, hk, List.range'_succ]
    rfl
  have hf : s.fetchBytes m = (s.bytesAtPc f.width, s) := by
    rw [State.fetchBytes, memRead_of_lt s h, hb]
    simp only [hwo, fetchOperands_fits s f.kinds.length (s.pc + 1) (by omega)]
  have hd : m.decode (s.bytesAtPc f.width) =
      f.decodeFields ((List.range' (s.pc + 1) f.kinds.length).map s.mem.read) := by
    rw [hb, OpcodeMap.decode, hl]
  rcases decodeFields_exact f ((List.range' (s.pc + 1) f.kinds.length).map s.mem.read) (by simp) with
    ⟨i, hi⟩ | ⟨v, -, hv, hi⟩
  · refine .inl ⟨i, hd.trans hi, ?_⟩
    rw [State.fetchDecode, hf]
    simp only [hd, hi]
  · refine .inr ⟨v, hv, hd.trans hi, ?_⟩
    rw [State.fetchDecode, hf]
    simp only [hd, hi]

/-- The four ways a run stops before any handler: what is reported, and the cause (R102 to R105 of
40_execution_loop.md). -/
inductive StopsBefore (m : OpcodeMap) (s : State) : List Event → HaltCause → Prop
  | pastEnd : 256 ≤ s.pc → StopsBefore m s [.diag .addrError (some s.pc), .diag .unknownOpcode none] .unknownOpcode
  | unknown (op : Byte) : s.peek s.pc = some op → m.lookup op = none →
      StopsBefore m s [.diag .unknownOpcode (some op.toNat)] .unknownOpcode
  | operand (op : Byte) : s.peek s.pc = some op → m.lookup op ≠ none → 256 < s.pc + m.widthOf op →
      StopsBefore m s [.diag .addrError (some 256), .diag .operandFault (some s.pc)] .operandFault
  | register (v : Byte) : 8 ≤ v.toNat → StopsBefore m s [.diag .badRegister (some v.toNat)] .badRegister

variable {m s} in
/-- The causes of those stops. -/
theorem StopsBefore.cause {events : List Event} {c : HaltCause} (h : StopsBefore m s events c) :
    c = .unknownOpcode ∨ c = .operandFault ∨ c = .badRegister := by
  cases h <;> simp

variable {m s} in
/-- Nothing but diagnostics is reported, and no INTERNAL among them. -/
theorem StopsBefore.events_diag {events : List Event} {c : HaltCause} (h : StopsBefore m s events c) :
    ∀ e ∈ events, ∃ d n, e = .diag d n ∧ d ≠ .internal := by
  cases h <;> simp

/-- Everything fetch and decode can do: run an instruction in the state itself, or stop with one of the four
endings of R102 to R105 of 40_execution_loop.md. -/
theorem fetchDecode_cases :
    (∃ i, s.fetchDecode m = .run i s ∧ s.pc < 256) ∨
      (∃ events cause, StopsBefore m s events cause ∧
        s.fetchDecode m = .stopped ({ s with trace := s.trace ++ events }.raiseStop cause)) := by
  rcases Nat.lt_or_ge s.pc 256 with h | h
  · have hp := peek_of_lt s h
    rcases hl : m.lookup (s.mem.read s.pc) with _ | f
    · exact .inr ⟨_, _, .unknown _ hp hl, by rw [fetchDecode_unknown m s h hl]; rfl⟩
    · rcases Nat.lt_or_ge 256 (s.pc + f.width) with hw | hw
      · have hwo : m.widthOf (s.mem.read s.pc) = f.width := by simp [OpcodeMap.widthOf, hl]
        refine .inr ⟨_, _, .operand _ hp (by simp [hl]) (hwo ▸ hw), ?_⟩
        rw [fetchDecode_truncated m s h hl hw]
        simp [State.stopWith, State.emitDiag, State.emit]
      · rcases fetchDecode_fits m s h hl hw with ⟨i, -, hi⟩ | ⟨v, hv, -, hi⟩
        · exact .inl ⟨i, hi, h⟩
        · exact .inr ⟨_, _, .register v hv, by rw [hi]; rfl⟩
  · refine .inr ⟨_, _, .pastEnd h, ?_⟩
    rw [fetchDecode_pastEnd m s h]
    simp [State.stopWith, State.emitDiag, State.emit]

end Sys2Proof.Machine
end

