-- ==== Sys2Proof/Laws/HostOps.lean ====
section
/-! SUPPORT. Where a core stands in its run, and what the host's operations answer there. -/

namespace Sys2Proof.Machine

variable {s : State}

theorem phase_constructed (h : s.halted = true) (hc : s.haltCause = .none) : s.phase = .constructed := by
  simp [State.phase, h, hc]

theorem phase_ended (h : s.halted = true) (hc : s.haltCause ≠ .none) : s.phase = .ended := by
  simp [State.phase, h, hc]

theorem phase_running (h : s.halted = false) : s.phase = .running := by
  simp [State.phase, h]

@[simp] theorem loadWrite_halted (a : Nat) (v : Byte) : (s.loadWrite a v).halted = s.halted := by
  unfold State.loadWrite State.memWrite
  split <;> rfl

@[simp] theorem loadWrite_haltCause (a : Nat) (v : Byte) : (s.loadWrite a v).haltCause = s.haltCause := by
  unfold State.loadWrite State.memWrite
  split <;> rfl

/-- A loader write does not move the core to another phase. -/
@[simp] theorem loadWrite_phase (a : Nat) (v : Byte) : (s.loadWrite a v).phase = s.phase := by
  simp [State.phase]

end Sys2Proof.Machine
end

