-- ==== Sys2Proof/Laws/PerInstr.lean ====
section
/-! SUPPORT. The family `EncodingShape`: what holds of every instruction as syntax. -/

namespace Sys2Proof.Laws.EncodingShape

/-- The encoding of an instruction is its opcode and as many operand bytes as its width says, and those bytes
are well formed for its operand kinds (R70, R73 of 30_encoding.md), whatever the opcode map. -/
def Statement (i : Instr) : Prop :=
  ∀ m : OpcodeMap, (m.encode i).length = i.width ∧ m.encode i = m.opcodeOf i :: m.operandsOf i ∧
    fieldsWellFormed i.kinds (m.operandsOf i) = true

/-- A register index is accepted as a field of kind R. -/
@[simp] theorem accepts_regByte (r : Reg) : OperandKind.R.accepts (regByte r) = true := by
  rw [accepts_R, regField_regByte]
  rfl

theorem hlt : Statement .hlt :=
  fun _ => ⟨rfl, rfl, by simp [fieldsWellFormed, Instr.kinds, OpcodeMap.operandsOf, OpcodeMap.encode]⟩

theorem ldi (a : Reg) (b : Byte) : Statement (.ldi a b) :=
  fun _ => ⟨rfl, rfl, by simp [fieldsWellFormed, Instr.kinds, OpcodeMap.operandsOf, OpcodeMap.encode]⟩

theorem ld (a b : Reg) : Statement (.ld a b) :=
  fun _ => ⟨rfl, rfl, by simp [fieldsWellFormed, Instr.kinds, OpcodeMap.operandsOf, OpcodeMap.encode]⟩

theorem st (a : Byte) (b : Reg) : Statement (.st a b) :=
  fun _ => ⟨rfl, rfl, by simp [fieldsWellFormed, Instr.kinds, OpcodeMap.operandsOf, OpcodeMap.encode]⟩

theorem prn (a : Reg) : Statement (.prn a) :=
  fun _ => ⟨rfl, rfl, by simp [fieldsWellFormed, Instr.kinds, OpcodeMap.operandsOf, OpcodeMap.encode]⟩

theorem pra (a : Reg) : Statement (.pra a) :=
  fun _ => ⟨rfl, rfl, by simp [fieldsWellFormed, Instr.kinds, OpcodeMap.operandsOf, OpcodeMap.encode]⟩

theorem add (a b : Reg) : Statement (.add a b) :=
  fun _ => ⟨rfl, rfl, by simp [fieldsWellFormed, Instr.kinds, OpcodeMap.operandsOf, OpcodeMap.encode]⟩

theorem sub (a b : Reg) : Statement (.sub a b) :=
  fun _ => ⟨rfl, rfl, by simp [fieldsWellFormed, Instr.kinds, OpcodeMap.operandsOf, OpcodeMap.encode]⟩

theorem mul (a b : Reg) : Statement (.mul a b) :=
  fun _ => ⟨rfl, rfl, by simp [fieldsWellFormed, Instr.kinds, OpcodeMap.operandsOf, OpcodeMap.encode]⟩

theorem div (a b : Reg) : Statement (.div a b) :=
  fun _ => ⟨rfl, rfl, by simp [fieldsWellFormed, Instr.kinds, OpcodeMap.operandsOf, OpcodeMap.encode]⟩

theorem mod (a b : Reg) : Statement (.mod a b) :=
  fun _ => ⟨rfl, rfl, by simp [fieldsWellFormed, Instr.kinds, OpcodeMap.operandsOf, OpcodeMap.encode]⟩

theorem and (a b : Reg) : Statement (.and a b) :=
  fun _ => ⟨rfl, rfl, by simp [fieldsWellFormed, Instr.kinds, OpcodeMap.operandsOf, OpcodeMap.encode]⟩

theorem or (a b : Reg) : Statement (.or a b) :=
  fun _ => ⟨rfl, rfl, by simp [fieldsWellFormed, Instr.kinds, OpcodeMap.operandsOf, OpcodeMap.encode]⟩

theorem xor (a b : Reg) : Statement (.xor a b) :=
  fun _ => ⟨rfl, rfl, by simp [fieldsWellFormed, Instr.kinds, OpcodeMap.operandsOf, OpcodeMap.encode]⟩

theorem shl (a b : Reg) : Statement (.shl a b) :=
  fun _ => ⟨rfl, rfl, by simp [fieldsWellFormed, Instr.kinds, OpcodeMap.operandsOf, OpcodeMap.encode]⟩

theorem shr (a b : Reg) : Statement (.shr a b) :=
  fun _ => ⟨rfl, rfl, by simp [fieldsWellFormed, Instr.kinds, OpcodeMap.operandsOf, OpcodeMap.encode]⟩

theorem not (a : Reg) : Statement (.not a) :=
  fun _ => ⟨rfl, rfl, by simp [fieldsWellFormed, Instr.kinds, OpcodeMap.operandsOf, OpcodeMap.encode]⟩

theorem addi (a : Reg) (b : Byte) : Statement (.addi a b) :=
  fun _ => ⟨rfl, rfl, by simp [fieldsWellFormed, Instr.kinds, OpcodeMap.operandsOf, OpcodeMap.encode]⟩

theorem inc (a : Reg) : Statement (.inc a) :=
  fun _ => ⟨rfl, rfl, by simp [fieldsWellFormed, Instr.kinds, OpcodeMap.operandsOf, OpcodeMap.encode]⟩

theorem dec (a : Reg) : Statement (.dec a) :=
  fun _ => ⟨rfl, rfl, by simp [fieldsWellFormed, Instr.kinds, OpcodeMap.operandsOf, OpcodeMap.encode]⟩

theorem push (a : Reg) : Statement (.push a) :=
  fun _ => ⟨rfl, rfl, by simp [fieldsWellFormed, Instr.kinds, OpcodeMap.operandsOf, OpcodeMap.encode]⟩

theorem pop (a : Reg) : Statement (.pop a) :=
  fun _ => ⟨rfl, rfl, by simp [fieldsWellFormed, Instr.kinds, OpcodeMap.operandsOf, OpcodeMap.encode]⟩

theorem call (a : Reg) : Statement (.call a) :=
  fun _ => ⟨rfl, rfl, by simp [fieldsWellFormed, Instr.kinds, OpcodeMap.operandsOf, OpcodeMap.encode]⟩

theorem ret : Statement .ret :=
  fun _ => ⟨rfl, rfl, by simp [fieldsWellFormed, Instr.kinds, OpcodeMap.operandsOf, OpcodeMap.encode]⟩

theorem cmp (a b : Reg) : Statement (.cmp a b) :=
  fun _ => ⟨rfl, rfl, by simp [fieldsWellFormed, Instr.kinds, OpcodeMap.operandsOf, OpcodeMap.encode]⟩

theorem jmp (a : Reg) : Statement (.jmp a) :=
  fun _ => ⟨rfl, rfl, by simp [fieldsWellFormed, Instr.kinds, OpcodeMap.operandsOf, OpcodeMap.encode]⟩

theorem jeq (a : Reg) : Statement (.jeq a) :=
  fun _ => ⟨rfl, rfl, by simp [fieldsWellFormed, Instr.kinds, OpcodeMap.operandsOf, OpcodeMap.encode]⟩

theorem jne (a : Reg) : Statement (.jne a) :=
  fun _ => ⟨rfl, rfl, by simp [fieldsWellFormed, Instr.kinds, OpcodeMap.operandsOf, OpcodeMap.encode]⟩

theorem jgt (a : Byte) : Statement (.jgt a) :=
  fun _ => ⟨rfl, rfl, by simp [fieldsWellFormed, Instr.kinds, OpcodeMap.operandsOf, OpcodeMap.encode]⟩

theorem jge (a : Byte) : Statement (.jge a) :=
  fun _ => ⟨rfl, rfl, by simp [fieldsWellFormed, Instr.kinds, OpcodeMap.operandsOf, OpcodeMap.encode]⟩

theorem jle (a : Byte) : Statement (.jle a) :=
  fun _ => ⟨rfl, rfl, by simp [fieldsWellFormed, Instr.kinds, OpcodeMap.operandsOf, OpcodeMap.encode]⟩

theorem int (a : Byte) : Statement (.int a) :=
  fun _ => ⟨rfl, rfl, by simp [fieldsWellFormed, Instr.kinds, OpcodeMap.operandsOf, OpcodeMap.encode]⟩

theorem iret : Statement .iret :=
  fun _ => ⟨rfl, rfl, by simp [fieldsWellFormed, Instr.kinds, OpcodeMap.operandsOf, OpcodeMap.encode]⟩

theorem nop : Statement .nop :=
  fun _ => ⟨rfl, rfl, by simp [fieldsWellFormed, Instr.kinds, OpcodeMap.operandsOf, OpcodeMap.encode]⟩

end Sys2Proof.Laws.EncodingShape
end

