-- ==== Sys2Proof/Laws/Stack.lean ====
section
/-! SUPPORT. What each meaning of 43_stack_and_subroutine.md comes to. -/

namespace Sys2Proof.Machine

variable (s : State) (a : Reg)

theorem execPush_eq : execPush a s =
    .next (((s.setReg spReg (s.x spReg - 1#8)).storeByte (s.x spReg - 1#8)
      (if spReg = a then s.x spReg - 1#8 else s.x a)).advance 2) := by
  simp [execPush, State.storeAtSp, decSp_eq]

/-- POP of an empty stack stops the run. -/
theorem execPop_empty (h : 244 ≤ (s.x spReg).toNat) : execPop a s =
    .next (s.stopWith .stackUnderflow (some (s.x spReg).toNat) .stackUnderflow) := by
  simp [execPop, h]

/-- POP of a stack that is not empty; when `a` is R7 the increment applies to the loaded value. -/
theorem execPop_eq (h : (s.x spReg).toNat < 244) : execPop a s =
    .next (((s.setReg a (s.loadByte (s.x spReg))).setReg spReg
      ((if a = spReg then s.loadByte (s.x spReg) else s.x spReg) + 1#8)).advance 2) := by
  have h' : ¬ 244 ≤ (s.x spReg).toNat := by omega
  simp [execPop, h', incSp_eq]

theorem execCall_eq : execCall a s =
    .next (((s.setReg spReg (s.x spReg - 1#8)).storeByte (s.x spReg - 1#8) (BitVec.ofNat 8 (s.pc + 2))).setPc
      (if spReg = a then s.x spReg - 1#8 else s.x a).toNat) := by
  simp [execCall, State.storeAtSp, decSp_eq, returnAddress_eq]

theorem execRet_eq : execRet s =
    .next ((s.setPc (s.loadByte (s.x spReg)).toNat).setReg spReg (s.x spReg + 1#8)) := by
  simp [execRet, incSp_eq]

end Sys2Proof.Machine
end

