-- ==== Sys2Proof/Laws/Step.lean ====
section
/-! SUPPORT. What a step comes to, said once. -/

namespace Sys2Proof.Machine

variable {m : OpcodeMap} {s : State}

/-- The machine's step is the step under its own opcode map. -/
theorem step_eq (s : State) : step s = stepWith opcodeMap s := rfl

/-- The step of a constructed core is the host's `run()`. -/
theorem step_constructed (h : s.halted = true) (hc : s.haltCause = .none) : stepWith m s = .next s.startRun := by
  simp [stepWith, State.nextAction, h, hc]

/-- There is no step after the run (R100 of 40_execution_loop.md). -/
theorem step_ended (h : s.halted = true) (hc : s.haltCause ≠ .none) : stepWith m s = .fault .halted := by
  simp [stepWith, State.nextAction, h, hc]

theorem nextAction_running (h : s.halted = false) : s.nextAction m = s.beginStep.fetchDecode m := by
  simp [State.nextAction, h]

theorem step_of_run {i : Instr} {t : State} (h : s.nextAction m = .run i t) : stepWith m s = exec i t := by
  rw [stepWith, h]

theorem step_of_stopped {t : State} (h : s.nextAction m = .stopped t) : stepWith m s = .next t := by
  rw [stepWith, h]

/-- Everything a step can be: the launch of a constructed core, no step after the run, an instruction run in the state
after the tick, or a stop before any handler (R100 to R106 of 40_execution_loop.md). -/
theorem step_cases (m : OpcodeMap) (s : State) :
    (s.halted = true ∧ s.haltCause = .none ∧ stepWith m s = .next s.startRun) ∨
      (s.halted = true ∧ s.haltCause ≠ .none ∧ stepWith m s = .fault .halted) ∨
      (s.halted = false ∧ ∃ i, s.nextAction m = .run i s.beginStep ∧ s.pc < 256 ∧ stepWith m s = exec i s.beginStep) ∨
      (s.halted = false ∧ ∃ events cause, StopsBefore m s.beginStep events cause ∧
        s.nextAction m = .stopped ({ s.beginStep with trace := s.beginStep.trace ++ events }.raiseStop cause) ∧
        stepWith m s = .next ({ s.beginStep with trace := s.beginStep.trace ++ events }.raiseStop cause)) := by
  rcases hh : s.halted with _ | _
  · have hn := nextAction_running (m := m) hh
    rcases fetchDecode_cases m s.beginStep with ⟨i, hi, hp⟩ | ⟨es, c, hc, hi⟩
    · rw [hi] at hn
      exact .inr (.inr (.inl ⟨rfl, i, hn, hp, step_of_run hn⟩))
    · rw [hi] at hn
      exact .inr (.inr (.inr ⟨rfl, es, c, hc, hn, step_of_stopped hn⟩))
  · by_cases hc : s.haltCause = .none
    · exact .inl ⟨rfl, hc, step_constructed hh hc⟩
    · exact .inr (.inl ⟨rfl, hc, step_ended hh hc⟩)

end Sys2Proof.Machine
end

