-- ==== Sys2Proof/Tests/Slice0.lean ====
section
/-! SUPPORT. The model's own tests. Expected values are those of 95_test_vectors.md of spec/ (its row is named) or
hand calculation from the rule named; words are written out from the encodings of spec/opcode_table.json. The theorems
`wit_<obligation>` show that the hypotheses of a statement can be met, at the boundary values of its clauses. -/

namespace Sys2Proof.Tests
open Sys2Proof Sys2Proof.Machine

/-! ### Helpers -/

/-- The launch state of 95_test_vectors.md, part 2, at pc 16; no tick fires at its next step. -/
def core : State := { State.reset.startRun with pc := 16, ticks := [false] }

/-- `core` with two registers set. -/
def withRegs (r q : Reg) (v w : Byte) : State := (core.setReg r v).setReg q w

/-- `core` with the stack pointer set. -/
def withSp (v : Byte) : State := core.setReg spReg v

/-- `core` with these bytes from pc `p` on. -/
def withBytes (p : Nat) (bytes : List Byte) : State := (core.setPc p).placeBytes p bytes

/-- The next state, if there is one. -/
def nextOf : Host.Outcome State Fault Refusal → Option State
  | .next t => some t
  | .fault _ => none
  | .refused _ => none

/-- Register `r` and pc after an instruction. -/
def regPc (i : Instr) (s : State) (r : Reg) : Option (Byte × Nat) := (nextOf (exec i s)).map fun t => (t.x r, t.pc)

/-- The cause of the stop and pc after an instruction, with a register. -/
def stopPc (i : Instr) (s : State) (r : Reg) : Option (HaltCause × Nat × Byte) :=
  (nextOf (exec i s)).map fun t => (t.haltCause, t.pc, t.x r)

/-- FL and pc after an instruction. -/
def flPc (i : Instr) (s : State) : Option (Byte × Nat) := (nextOf (exec i s)).map fun t => (t.fl, t.pc)

/-- SP, a byte of memory and pc after an instruction. -/
def spMemPc (i : Instr) (s : State) (a : Nat) : Option (Byte × Option Byte × Nat) :=
  (nextOf (exec i s)).map fun t => (t.sp, t.peek a, t.pc)

/-- The cause, the trace and pc after a step. -/
def stepEnd (s : State) : Option (HaltCause × List Event × Nat) :=
  (nextOf (step s)).map fun t => (t.haltCause, t.trace, t.pc)

/-! ### Ill-formed operand bytes are refused (R70, R73 of 30_encoding.md) -/

theorem test_wf_register_field_8 : fieldsWellFormed [.R] [0x08] = false := by decide
theorem test_wf_register_field_255 : fieldsWellFormed [.R, .R] [0x00, 0xFF] = false := by decide
theorem test_wf_too_few_bytes : fieldsWellFormed [.R, .I] [0x00] = false := by decide
theorem test_wf_too_many_bytes : fieldsWellFormed [.R] [0x00, 0x00] = false := by decide
theorem test_wf_only_registers_are_checked :
    fieldsWellFormed [.M, .R] [0xC8, 0x07] = true ∧ fieldsWellFormed [.R, .I] [0x07, 0xFF] = true ∧
      fieldsWellFormed [.U] [0xC8] = true := by decide

/-! ### Decoding, bit by bit (the column "encoding" of spec/opcode_table.json) -/

theorem test_decode_data_movement :
    opcodeMap.decode [0b10000010, 0b00000011, 0b11111111] = .ok (.ldi 3 255) [] ∧
      opcodeMap.decode [0b10000011, 0b00000101, 0b00000010] = .ok (.ld 5 2) [] ∧
      opcodeMap.decode [0b10000100, 0b11001000, 0b00000110] = .ok (.st 200 6) [] ∧
      opcodeMap.decode [0b01000111, 0b00000111] = .ok (.prn 7) [] ∧
      opcodeMap.decode [0b01001000, 0b00000010] = .ok (.pra 2) [] := by decide

theorem test_decode_alu :
    opcodeMap.decode [0b10100000, 0b00000001, 0b00000110] = .ok (.add 1 6) [] ∧
      opcodeMap.decode [0b10100001, 0b00000001, 0b00000110] = .ok (.sub 1 6) [] ∧
      opcodeMap.decode [0b10100010, 0b00000001, 0b00000110] = .ok (.mul 1 6) [] ∧
      opcodeMap.decode [0b10100011, 0b00000001, 0b00000110] = .ok (.div 1 6) [] ∧
      opcodeMap.decode [0b10100100, 0b00000001, 0b00000110] = .ok (.mod 1 6) [] ∧
      opcodeMap.decode [0b10101000, 0b00000001, 0b00000110] = .ok (.and 1 6) [] ∧
      opcodeMap.decode [0b10101010, 0b00000001, 0b00000110] = .ok (.or 1 6) [] ∧
      opcodeMap.decode [0b10101011, 0b00000001, 0b00000110] = .ok (.xor 1 6) [] ∧
      opcodeMap.decode [0b10101100, 0b00000001, 0b00000110] = .ok (.shl 1 6) [] ∧
      opcodeMap.decode [0b10101101, 0b00000001, 0b00000110] = .ok (.shr 1 6) [] := by decide

theorem test_decode_alu_unary_and_compare :
    opcodeMap.decode [0b01101001, 0b00000011] = .ok (.not 3) [] ∧ opcodeMap.decode [0b01100101, 0b00000010] = .ok (.inc 2) [] ∧
      opcodeMap.decode [0b01100110, 0b00000100] = .ok (.dec 4) [] ∧
      opcodeMap.decode [0b10100111, 0b00000010, 0b00000011] = .ok (.cmp 2 3) [] := by decide

/-- ADDI has no byte of its own in the table: it decodes at `OPC_ADDI`, whichever byte that is. -/
theorem test_decode_addi : opcodeMap.decode [opcAddi, 0b00000101, 0b10000001] = .ok (.addi 5 129) [] := by
  rw [OpcodeMap.decode, lookup_opcAddi]; decide

theorem test_decode_stack :
    opcodeMap.decode [0b01000101, 0b00000100] = .ok (.push 4) [] ∧ opcodeMap.decode [0b01000110, 0b00000001] = .ok (.pop 1) [] ∧
      opcodeMap.decode [0b01010000, 0b00000111] = .ok (.call 7) [] ∧ opcodeMap.decode [0b00010001] = .ok .ret [] := by decide

theorem test_decode_control :
    opcodeMap.decode [0b01010100, 0b00000010] = .ok (.jmp 2) [] ∧ opcodeMap.decode [0b01010101, 0b00000100] = .ok (.jeq 4) [] ∧
      opcodeMap.decode [0b01010110, 0b00000101] = .ok (.jne 5) [] ∧ opcodeMap.decode [0b01010111, 0b11001000] = .ok (.jgt 200) [] ∧
      opcodeMap.decode [0b01011010, 0b11001000] = .ok (.jge 200) [] ∧ opcodeMap.decode [0b01011001, 0b11001000] = .ok (.jle 200) [] := by
  decide

theorem test_decode_system :
    opcodeMap.decode [0b00000001] = .ok .hlt [] ∧ opcodeMap.decode [0b01010010, 0b11111111] = .ok (.int 255) [] ∧
      opcodeMap.decode [0b00010011] = .ok .iret [] ∧ opcodeMap.decode [0b00000000] = .ok .nop [] := by decide

/-- The first bad register field is the one reported, after the presence of the bytes (R245 of 60_exceptions.md). -/
theorem test_decode_rejects_by_name :
    opcodeMap.decode [] = .noOpcode ∧ opcodeMap.decode [0x82, 0x08] = .truncated ∧ opcodeMap.decode [0xA3, 0x09, 0x08] = .badRegister 9 ∧
      opcodeMap.decode [0xA3, 0x00, 0x08] = .badRegister 8 ∧ opcodeMap.decode [0x84, 0x08, 0x09] = .badRegister 9 := by decide

/-- A table word: bit 0 is the least significant bit of the opcode byte; bits from `nbits` up are zero. -/
theorem test_decodeTableWord :
    decodeTableWord 24 0xFF0382 = some (.ldi 3 255) ∧ decodeTableWord 8 0x000083 = some (.ld 0 0) ∧
      decodeTableWord 16 0x0847 = none := by decide

/-! ### Data movement and output -/

/-- V-LDI-1. -/
theorem test_ldi : regPc (.ldi 3 255) core 3 = some (255, 19) := by decide
/-- V-LDI-2: SP is an ordinary register. -/
theorem test_ldi_sp : regPc (.ldi 7 0) core 7 = some (0, 19) := by decide
/-- V-LD-1. -/
theorem test_ld : regPc (.ld 0 1) ((core.setReg 1 0x10).memWrite 0x10 42) 0 = some (42, 19) := by decide
/-- V-LD-2: the address register is the destination. -/
theorem test_ld_own_opcode :
    (nextOf (step ((withBytes 16 [0x83, 0x01, 0x01]).setReg 1 16))).map (fun t => (t.x 1, t.pc)) =
      some (0x83, 19) := by decide
/-- V-ST-3: the field 200 is a memory address. -/
theorem test_st : spMemPc (.st 200 0) ((core.setReg 0 5).memWrite 200 17) 17 = some (244, some 5, 19) := by decide
/-- V-ST-2: the store address comes from memory, not from a register. -/
theorem test_st_not_through_register :
    (nextOf (exec (.st 2 1) ((withRegs 1 2 99 0x30).memWrite 2 0x08))).map (fun t => (t.peek 0x08, t.peek 0x30)) =
      some (some 99, some 0) := by decide
/-- V-PRN-1. -/
theorem test_prn : (nextOf (exec (.prn 7) core)).map (fun t => (t.trace, t.pc)) = some ([.out .prn 244], 18) := by
  decide
/-- V-PRA-1. -/
theorem test_pra : (nextOf (exec (.pra 2) (core.setReg 2 65))).map (fun t => (t.trace, t.pc)) =
    some ([.out .pra 65], 18) := by decide

/-! ### ALU, register arithmetic, compare -/

/-- V-ADD-2. -/
theorem test_add_wraps : regPc (.add 0 1) (withRegs 0 1 200 100) 0 = some (44, 19) := by decide
/-- V-ADD-4: source and destination are one register. -/
theorem test_add_same : regPc (.add 0 0) (core.setReg 0 130) 0 = some (4, 19) := by decide
/-- V-SUB-2. -/
theorem test_sub_wraps : regPc (.sub 0 1) (withRegs 0 1 5 6) 0 = some (255, 19) := by decide
/-- V-SUB-1. -/
theorem test_sub : regPc (.sub 0 1) (withRegs 0 1 10 3) 0 = some (7, 19) := by decide
/-- V-MUL-3. -/
theorem test_mul_keeps_the_low_byte : regPc (.mul 0 1) (withRegs 0 1 255 255) 0 = some (1, 19) := by decide
/-- V-MUL-1. -/
theorem test_mul : regPc (.mul 0 1) (withRegs 0 1 8 9) 0 = some (72, 19) := by decide
/-- V-DIV-1. -/
theorem test_div : regPc (.div 0 1) (withRegs 0 1 20 6) 0 = some (3, 19) := by decide
/-- V-DIV-5. -/
theorem test_div_by_zero : stopPc (.div 0 1) (withRegs 0 1 9 0) 0 = some (.divByZero, 16, 9) := by decide
/-- V-MOD-1. -/
theorem test_mod : regPc (.mod 0 1) (withRegs 0 1 17 5) 0 = some (2, 19) := by decide
/-- V-MOD-4. -/
theorem test_mod_by_zero : stopPc (.mod 0 1) (withRegs 0 1 4 0) 0 = some (.divByZero, 16, 4) := by decide
/-- V-AND-1. -/
theorem test_and : regPc (.and 0 1) (withRegs 0 1 0xCA 0xA6) 0 = some (0x82, 19) := by decide
/-- V-OR-1. -/
theorem test_or : regPc (.or 0 1) (withRegs 0 1 0xCA 0xA6) 0 = some (0xEE, 19) := by decide
/-- V-XOR-1. -/
theorem test_xor : regPc (.xor 0 1) (withRegs 0 1 0xCA 0xA6) 0 = some (0x6C, 19) := by decide
/-- V-SHL-1. -/
theorem test_shl : regPc (.shl 0 1) (withRegs 0 1 0x05 2) 0 = some (0x14, 19) := by decide
/-- V-SHL-7: the count is not masked. -/
theorem test_shl_whole_count : regPc (.shl 0 1) (withRegs 0 1 0xFF 200) 0 = some (0, 19) := by decide
/-- V-SHR-1: logical. -/
theorem test_shr : regPc (.shr 0 1) (withRegs 0 1 0xF0 4) 0 = some (0x0F, 19) := by decide
/-- V-SHR-4. -/
theorem test_shr_whole_count : regPc (.shr 0 1) (withRegs 0 1 0xFF 255) 0 = some (0, 19) := by decide
/-- V-NOT-1. -/
theorem test_not : regPc (.not 3) (core.setReg 3 0x0F) 3 = some (0xF0, 18) := by decide
/-- V-ADDI-1. -/
theorem test_addi : regPc (.addi 0 3) (core.setReg 0 5) 0 = some (8, 19) := by decide
/-- V-ADDI-2. -/
theorem test_addi_wraps : regPc (.addi 0 10) (core.setReg 0 250) 0 = some (4, 19) := by decide
/-- V-INC-1. -/
theorem test_inc : regPc (.inc 2) (core.setReg 2 41) 2 = some (42, 18) := by decide
/-- V-INC-2. -/
theorem test_inc_wraps : regPc (.inc 2) (core.setReg 2 255) 2 = some (0, 18) := by decide
/-- V-DEC-2. -/
theorem test_dec_wraps : regPc (.dec 0) (core.setReg 0 0) 0 = some (255, 18) := by decide
/-- V-DEC-3: no flag is set. -/
theorem test_dec_keeps_flags : flPc (.dec 0) ((core.setReg 0 1).setFl 4) = some (4, 18) := by decide
/-- V-CMP-2. -/
theorem test_cmp_less : flPc (.cmp 2 3) (withRegs 2 3 5 6) = some (0x04, 19) := by decide
/-- V-CMP-6: the whole register is rewritten. -/
theorem test_cmp_greater : flPc (.cmp 2 3) ((withRegs 2 3 1 0).setFl 5) = some (0x02, 19) := by decide

/-! ### Stack and subroutine -/

/-- V-PUSH-1. -/
theorem test_push : spMemPc (.push 0) (core.setReg 0 7) 243 = some (243, some 7, 18) := by decide
/-- V-PUSH-2: the moved SP is pushed. -/
theorem test_push_sp : spMemPc (.push 7) core 243 = some (243, some 243, 18) := by decide
/-- V-POP-1. -/
theorem test_pop : (nextOf (exec (.pop 1) ((withSp 243).memWrite 243 7))).map (fun t => (t.x 1, t.sp, t.pc)) =
    some (7, 244, 18) := by decide
/-- V-POP-4: the popped value is raised. -/
theorem test_pop_sp : spMemPc (.pop 7) ((withSp 240).memWrite 240 9) 240 = some (10, some 9, 18) := by decide
/-- V-CALL-1. -/
theorem test_call : spMemPc (.call 1) ((core.setPc 6).setReg 1 11) 243 = some (243, some 8, 11) := by decide
/-- V-CALL-2: the jump goes to the moved SP. -/
theorem test_call_sp : spMemPc (.call 7) (core.setPc 20) 243 = some (243, some 22, 243) := by decide
/-- V-RET-1. -/
theorem test_ret : spMemPc .ret ((withSp 243).memWrite 243 8) 243 = some (244, some 8, 8) := by decide
/-- V-RET-3: SP wraps. -/
theorem test_ret_wraps : spMemPc .ret ((withSp 255).memWrite 255 3) 255 = some (0, some 3, 3) := by decide

/-! ### Control and system -/

/-- V-JMP-1. -/
theorem test_jmp : regPc (.jmp 2) (core.setReg 2 9) 2 = some (9, 9) := by decide
/-- V-JEQ-1. -/
theorem test_jeq_taken : flPc (.jeq 4) ((core.setReg 4 20).setFl 1) = some (1, 20) := by decide
/-- V-JEQ-2. -/
theorem test_jeq_not_taken : flPc (.jeq 4) ((core.setReg 4 20).setFl 2) = some (2, 18) := by decide
/-- V-JNE-3. -/
theorem test_jne_taken : flPc (.jne 4) (core.setReg 4 20) = some (0, 20) := by decide
/-- V-JNE-2. -/
theorem test_jne_not_taken : flPc (.jne 4) ((core.setReg 4 20).setFl 1) = some (1, 18) := by decide
/-- V-JGT-1. -/
theorem test_jgt_is_a_stub : flPc (.jgt 4) ((core.setReg 4 20).setFl 2) = some (2, 18) := by decide
/-- V-JGE-1. -/
theorem test_jge_is_a_stub : flPc (.jge 4) ((core.setReg 4 20).setFl 1) = some (1, 18) := by decide
/-- V-JLE-1. -/
theorem test_jle_is_a_stub : flPc (.jle 4) ((core.setReg 4 20).setFl 4) = some (4, 18) := by decide
/-- V-HLT-1. -/
theorem test_hlt : stopPc .hlt core 7 = some (.hlt, 16, 244) := by decide
/-- V-NOP-1. -/
theorem test_nop : nextOf (exec .nop core) = some (core.setPc 17) := by decide
/-- V-INT-1. -/
theorem test_int : nextOf (exec (.int 0) core) = some (core.setPc 18) := by decide
/-- V-IRET-1: nothing is popped. -/
theorem test_iret : nextOf (exec .iret (withSp 243)) = some ((withSp 243).setPc 17) := by decide

/-! ### Fetch, decode, tick, launch -/

/-- V-DEC-OPF-3: HLT at the last address needs no operand. -/
theorem test_hlt_at_the_last_address : stepEnd (withBytes 255 [0x01]) = some (.hlt, [], 255) := by decide
/-- V-DEC-BAD-2: the register check comes before the handler's own stop. -/
theorem test_bad_register_before_underflow :
    stepEnd (withBytes 16 [0x46, 0x09]) = some (.badRegister, [.diag .badRegister (some 9)], 16) := by decide
/-- V-DEC-OPF-2: the operand of a stub is fetched too. -/
theorem test_operand_of_a_stub_is_fetched :
    stepEnd (withBytes 255 [0x57]) =
      some (.operandFault, [.diag .addrError (some 256), .diag .operandFault (some 255)], 255) := by decide
/-- V-TICK-1. -/
theorem test_tick_clears_r6_first :
    stepEnd { (withBytes 16 [0x47, 0x06]).setReg 6 77 with ticks := [true] } =
      some (.none, [.diag .tick (some 0), .out .prn 0], 18) := by decide
/-- V-TICK-2. -/
theorem test_without_tick : stepEnd ((withBytes 16 [0x47, 0x06]).setReg 6 77) = some (.none, [.out .prn 77], 18) := by
  decide
/-- The launch (R271 of 70_reset_and_hazards.md). -/
theorem test_run_from_reset :
    (nextOf (step State.reset)).map (fun t => (t.halted, t.sp, t.pc)) = some (false, 244, 0) := by decide
/-- A placed word runs as the first instruction after reset, whatever the tick draws. -/
theorem test_withFetchWord :
    (nextOf (step (State.reset.withFetchWord 24 0xFF0382))).map (fun t => (t.x 3, t.pc)) = some (255, 3) := by decide

/-- Under another opcode map (R7 of 00_scope.md) the same byte is another instruction: here 0x00 is HLT. -/
theorem test_step_under_another_map :
    (nextOf (stepWith { defaultOpcodes 0x85 with hlt := 0x00, nop := 0x01 } (withBytes 16 [0x00]))).map
      (fun t => (t.haltCause, t.pc)) = some (.hlt, 16) := by decide
/-- The loader writes before the run only (R274 of 70_reset_and_hazards.md). -/
theorem test_load_write_before_run_only :
    (nextOf (hostLoadWrite 3 7 State.reset)).map (fun t => t.peek 3) = some (some 7) ∧
      nextOf (hostLoadWrite 3 7 core) = none ∧ nextOf (hostLoadWrite 3 7 (core.raiseStop .hlt)) = none := by decide

/-! ### Witnesses: the hypotheses of the statements can be met -/

theorem wit_RunStartsAConstructedCore : State.reset.halted = true ∧ State.reset.haltCause = .none := by decide

/-- The three phases of a run. -/
theorem wit_NoStepAndNoSecondRunAfterARun :
    State.reset.phase = .constructed ∧ core.phase = .running ∧ (core.raiseStop .hlt).phase = .ended ∧
      (core.raiseStop .hlt).halted = true ∧ (core.raiseStop .hlt).haltCause ≠ .none ∧ core.halted = false := by decide

/-- The last address inside and the first outside. -/
theorem wit_LoadWriteIsBoundsChecked :
    (core.loadWrite 255 7).peek 255 = some 7 ∧ (core.loadWrite 256 7).trace = [.diag .addrError (some 256)] ∧
      (core.loadWrite 256 7).peek 256 = none := by decide

/-- The longest image, and one that leaves the last byte zero. -/
theorem wit_LoadedImageLiesAtZero :
    (List.replicate 256 (1 : Byte)).length ≤ 256 ∧ ([1, 2] : List Byte).length ≤ 256 ∧
      (State.reset.loadImage [1, 2]).peek 1 = some 2 ∧ (State.reset.loadImage [1, 2]).peek 2 = some 0 ∧
      (State.reset.loadImage [1, 2]).peek 255 = some 0 :=
  ⟨Nat.le_of_eq List.length_replicate, by decide, by decide, by decide, by decide⟩

theorem wit_MemReadReturnsTheByteOrReports :
    core.memRead 255 = (some 0, core) ∧ (core.memRead 256).1 = none ∧
      (core.memRead 256).2.trace = [.diag .addrError (some 256)] := by decide

theorem wit_MemWriteChangesOneCellOrReports :
    (core.memWrite 255 9).peek 255 = some 9 ∧ (core.memWrite 255 9).peek 254 = some 0 ∧
      (core.memWrite 256 9).trace = [.diag .addrError (some 256)] := by decide

/-- A later write to the same address wins; an address not written keeps its byte; out of range changes nothing. -/
theorem wit_ReadsSeeTheMostRecentWrite :
    (([(255, 1), (255, 2), (256, 3)] : List (Nat × Byte)).foldl (fun t w => t.memWrite w.1 w.2) core).peek 255 = some 2 ∧
      (([(255, 1)] : List (Nat × Byte)).foldl (fun t w => t.memWrite w.1 w.2) core).peek 254 = some 0 := by decide

/-- A map without duplicates that is not the default one: HLT and NOP change places, ADDI has 0x85. -/
theorem wit_AnotherOpcodeMap :
    { defaultOpcodes 0x85 with hlt := 0x00, nop := 0x01 }.Distinct ∧
      { defaultOpcodes 0x85 with hlt := 0x00, nop := 0x01 }.decode [0x00] = .ok .hlt [] ∧
      { defaultOpcodes 0x85 with hlt := 0x00, nop := 0x01 }.encode .hlt = [0x00] := by decide

theorem wit_DispatchTableHasOneEntryPerOpcode : (opcodeMap.lookup 0x82).isSome = true ∧ (opcodeMap.lookup opcAddi).isSome = true := by
  rw [lookup_opcAddi]; decide

/-- Two instructions of one opcode; bytes that decode with a byte left over. -/
theorem wit_WidthIsAFunctionOfTheOpcodeByte :
    opcodeMap.opcodeOf (.ldi 0 1) = opcodeMap.opcodeOf (.ldi 7 255) ∧ opcodeMap.decode [0x47, 0x07, 0x01] = .ok (.prn 7) [0x01] := by decide

theorem wit_EncodeOfDecodeIsTheBytes : opcodeMap.decode [0x84, 0xC8, 0x06, 0x01] = .ok (.st 200 6) [0x01] := by decide

theorem wit_StepRunsTheDecodedInstruction :
    (withBytes 253 [0x82, 0x03, 0xFF]).halted = false ∧ BytesAtPc [0x82, 0x03, 0xFF] (withBytes 253 [0x82, 0x03, 0xFF]) ∧
      opcodeMap.decode [0x82, 0x03, 0xFF] = .ok (.ldi 3 255) [] := by
  unfold BytesAtPc; decide

theorem wit_TickClearsOnlyR6 :
    { core with ticks := [true] }.drawAt 0 = true ∧ core.drawAt 0 = false ∧
      { core with ticks := [true, false] }.drawAt 1 = false := by decide

theorem wit_TickedStepIsAStepFromClearedR6 : core.halted = false := by decide

theorem wit_FetchPastTheEndStops : (core.setPc 256).halted = false ∧ 256 ≤ (core.setPc 256).pc := by decide

/-- A byte that is no opcode: 0x58, or 0xFF should `OPC_ADDI` be 0x58. -/
theorem wit_UnknownOpcodeStops :
    ∃ (s : State) (op : Byte), s.halted = false ∧ s.peek s.pc = some op ∧ opcodeMap.lookup op = none := by
  by_cases h : opcodeMap.addi = 0x58
  · exact ⟨withBytes 16 [0xFF], 0xFF, by decide, by decide, lookup_unknown (by decide) (by rw [h]; decide)⟩
  · exact ⟨withBytes 16 [0x58], 0x58, by decide, by decide, lookup_unknown (by decide) h⟩

/-- V-DEC-OPF-1: three bytes wanted at 254, two left. -/
theorem wit_OperandPastTheEndStops :
    (withBytes 254 [0x82, 0x08]).halted = false ∧ (withBytes 254 [0x82, 0x08]).peek 254 = some 0x82 ∧
      (opcodeMap.lookup 0x82).isSome = true ∧ 256 < 254 + opcodeMap.widthOf 0x82 := by decide

/-- The first field bad (V-DEC-BAD-1), and the second bad after a good first (V-DEC-BAD-4). -/
theorem wit_BadRegisterFieldStops :
    (opcodeMap.lookup 0x47).map Format.kinds = some [.R] ∧ BytesAtPc [0x47, 0x08] (withBytes 16 [0x47, 0x08]) ∧
      (opcodeMap.lookup 0xA3).map Format.kinds = some [.R, .R] ∧ BytesAtPc [0xA3, 0x07, 0x08] (withBytes 16 [0xA3, 0x07, 0x08]) ∧
      (withBytes 16 [0xA3, 0x07, 0x08]).halted = false ∧ 8 ≤ (0x08 : Byte).toNat ∧ (0x07 : Byte).toNat < 8 := by
  unfold BytesAtPc; decide

theorem wit_PlacedWordIsTheNextInstruction : decodeTableWord 24 0xFF0382 = some (.ldi 3 255) := by decide

/-- The last address. -/
theorem wit_LdLoadsFromTheRegisterAddress : ((core.setReg 1 255).memWrite 255 3).peek
    (((core.setReg 1 255).memWrite 255 3).x 1).toNat = some 3 := by decide

theorem wit_AluHandlerWritesTheResultOrStops :
    (Instr.div 0 1, AluOp.div) ∈ [(Instr.add 0 1, AluOp.add), (.sub 0 1, .sub), (.mul 0 1, .mul), (.div 0 1, .div),
      (.mod 0 1, .mod), (.and 0 1, .and), (.or 0 1, .or), (.xor 0 1, .xor), (.shl 0 1, .shl), (.shr 0 1, .shr)] ∧
      alu .div 9 0 = .divZero ∧ alu .div 9 2 = .value 4 := by decide

/-- Counts 7 and 8. -/
theorem wit_ShiftsUseTheWholeCount :
    8 ≤ ((core.setReg 1 8).x 1).toNat ∧ regPc (.shl 0 1) (withRegs 0 1 1 7) 0 = some (0x80, 19) ∧
      regPc (.shl 0 1) (withRegs 0 1 1 8) 0 = some (0, 19) ∧ regPc (.shr 0 1) (withRegs 0 1 0x80 8) 0 = some (0, 19) := by
  decide

theorem wit_DivAndModGiveQuotientAndRemainder : (core.setReg 1 1).x 1 ≠ 0#8 := by decide

theorem wit_DivAndModByZeroStop : core.x 1 = 0#8 := by decide

/-- The three outcomes at 0 and 255. -/
theorem wit_CmpWritesExactlyOneFlag :
    flPc (.cmp 0 1) (withRegs 0 1 255 255) = some (1, 19) ∧ flPc (.cmp 0 1) (withRegs 0 1 255 0) = some (2, 19) ∧
      flPc (.cmp 0 1) (withRegs 0 1 0 255) = some (4, 19) := by decide

/-- SP just below the empty stack. -/
theorem wit_PopLoadsAndRaisesTheStackPointer :
    ((withSp 243).memWrite 243 7).sp.toNat < 244 ∧
      ((withSp 243).memWrite 243 7).peek ((withSp 243).memWrite 243 7).sp.toNat = some 7 := by decide

theorem wit_PopOfAnEmptyStackStops : 244 ≤ core.sp.toNat ∧ 244 ≤ (withSp 255).sp.toNat := by decide

theorem wit_RetPopsTheProgramCounter :
    ((withSp 255).memWrite 255 3).peek ((withSp 255).memWrite 255 3).sp.toNat = some 3 := by decide

/-- Both ends of the range of SP. -/
theorem wit_PushThenPopRestoresTheStack :
    (1 : Reg) ≠ 7 ∧ 1 ≤ (withSp 1).sp.toNat ∧ core.sp.toNat = 244 := by decide

/-- The last call site whose return address fits a byte. -/
theorem wit_CallThenMatchingRetReturns :
    (core.setPc 253).pc ≤ 253 ∧ ∃ t u : State, exec (.call 0) (core.setPc 253) = .next t ∧ u.sp = t.sp ∧
      u.peek t.sp.toNat = t.peek t.sp.toNat :=
  ⟨by decide, _, ((core.setPc 253).decSp.storeByte 243 255).setPc 9, rfl, rfl, rfl⟩

/-- A CMP that is greater, other instructions that keep FL, and a jump with FL zero. -/
theorem wit_OnlyCmpWritesAndJeqJneReadFlags :
    flPc (.cmp 0 1) (withRegs 0 1 2 1) = some (2, 19) ∧ flPc (.add 0 1) (core.setFl 4) = some (4, 19) ∧
      (core.setFl 6).fl.getLsbD 0 = (core.setFl 2).fl.getLsbD 0 ∧
      flPc (.jeq 0) core = some (0, 18) ∧ flPc (.jne 0) core = some (0, 0) := by decide

theorem wit_ProgramCounterFollowsTheTable : (nextOf (exec (.pop 0) core)).isSome = true := by decide

theorem wit_AluFamilyTouchesOneRegisterAndNoMemory :
    regPc (.xor 0 1) (withRegs 0 1 3 5) 0 = some (6, 19) ∧
      stopPc (.div 0 1) (withRegs 0 1 7 0) 0 = some (.divByZero, 16, 7) := by decide

theorem wit_StopsChangeNothingElse :
    (withBytes 16 [0x01]).halted = false ∧ (nextOf (step (withBytes 16 [0x01]))).map State.halted = some true := by
  decide

theorem wit_InternalStopIsUnreachable :
    core.haltCause ≠ .internal ∧ (nextOf (step (withBytes 16 [0xA3, 0x00, 0x01]))).isSome = true := by decide

/-- An instruction run on a stopped core, as a meaning may be asked to. -/
theorem wit_NoInstructionClearsHalted :
    (core.raiseStop .hlt).halted = true ∧ (nextOf (exec .nop (core.raiseStop .hlt))).isSome = true := by decide

theorem wit_TraceIsAppendOnly : (nextOf (step (withBytes 16 [0x47, 0x07]))).map State.trace =
    some [.out .prn 244] := by decide

/-- An output instruction, one that is none, and a step in which none runs. -/
theorem wit_OutputIsExactlyPrnAndPra :
    (nextOf (exec (.pra 7) core)).map (fun t => outputs t.trace) = some [(.pra, 244)] ∧
      (nextOf (exec .nop core)).map (fun t => outputs t.trace) = some [] ∧
      (nextOf (step (core.setPc 256))).map (fun t => outputs t.trace) = some [] ∧
      (∀ i u, (core.setPc 256).nextAction opcodeMap ≠ .run i u) :=
  ⟨by decide, by decide, by decide, fun i u h => by
    have hn := nextAction_running (m := opcodeMap) (s := core.setPc 256) rfl
    rw [fetchDecode_pastEnd _ _ (Nat.le_refl 256), h] at hn
    cases hn⟩

theorem wit_AddressingErrorsOnlyInStoppingSteps :
    (withBytes 16 [0x00]).halted = false ∧ (nextOf (step (withBytes 16 [0x00]))).map State.halted = some false := by
  decide

/-- ST writes the byte that is fetched next. -/
theorem wit_StoresAreSeenByTheNextFetch :
    writeRequest 19 5 ∈ dataRequests (.st 200 0) ((core.setReg 0 5).memWrite 200 19) ∧ (writeRequest 19 5).we = true ∧
      spMemPc (.st 200 0) ((core.setReg 0 5).memWrite 200 19) 19 = some (244, some 5, 19) := by decide

theorem wit_RequestsAccountForEveryMemoryChange :
    (nextOf (step ((withBytes 16 [0x45, 0x00]).setReg 0 7))).map (fun t => t.peek 243) = some (some 7) := by decide

/-- The last state in which the bound of the address holds. -/
theorem wit_RequestsAreBoundedAndAnswered :
    (core.setPc 258).pc ≤ 258 ∧ readRequest (core.setPc 258) 258 ∈ fetchRequests opcodeMap (core.setPc 258) ∧
      readRequest (core.setReg 1 255) 255 ∈ dataRequests (.ld 0 1) (core.setReg 1 255) := by decide

theorem wit_EveryStepKeepsTheInvariant :
    (withBytes 16 [0x00]).Inv ∧ (nextOf (step (withBytes 16 [0x00]))).isSome = true := by
  unfold State.Inv State.flagsLegal; decide

end Sys2Proof.Tests
end

section
/-! SUPPORT. What one instruction can do to the state, said once for all 34 (R106 of 40_execution_loop.md): the invariants
below split on its seven effects and not on the instruction. -/

namespace Sys2Proof.Machine

/-- A value of pc that a handler may leave behind: at most three past the instruction, or an 8-bit jump target (R108, R109
of 40_execution_loop.md). -/
def State.MayReach (s : State) (p : Nat) : Prop := p ≤ s.pc + 3 ∨ p < 256

theorem mayReach_add {s : State} {w : Nat} (h : w ≤ 3) : s.MayReach (s.pc + w) := .inl (Nat.add_le_add_left h s.pc)

theorem mayReach_byte {s : State} (v : Byte) : s.MayReach v.toNat := .inr v.isLt

/-- A pc below 256 leads to at most 258 (R27 of 10_state.md). -/
theorem State.MayReach.le {s : State} {p : Nat} (h : s.MayReach p) (hs : s.pc < 256) : p ≤ 258 := by
  unfold State.MayReach at h
  omega

/-- CMP, the one instruction that writes FL (R30 of 10_state.md). -/
def isCmp : Instr → Bool
  | .cmp _ _ => true
  | _ => false

theorem isCmp_eq_false {i : Instr} : isCmp i = false ↔ ∀ a b, i ≠ .cmp a b := by
  cases i <;> simp [isCmp]

/-- The effects of the instructions: what is left when `i` has run from `s`. -/
inductive Effect (s : State) : Instr → State → Prop
  /-- Registers and pc change. -/
  | moves {i : Instr} (hi : isCmp i = false) (regs : Vector Byte 8) (p : Nat) (hp : s.MayReach p) :
      Effect s i { s with regs := regs, pc := p }
  /-- One byte is stored, and registers and pc change. -/
  | stores {i : Instr} (hi : isCmp i = false) (regs : Vector Byte 8) (p : Nat) (hp : s.MayReach p) (a v : Byte) :
      Effect s i { s with regs := regs, pc := p, mem := s.mem.write a.toNat v }
  /-- PRN or PRA puts out the value of a register. -/
  | prints {i : Instr} (k : OutKind) (a : Reg) (hi : (i, k) = (.prn a, .prn) ∨ (i, k) = (.pra a, .pra)) :
      Effect s i ((s.emit (.out k (s.x a))).advance 2)
  /-- CMP writes FL. -/
  | compares (a b : Reg) : Effect s (.cmp a b) ((s.setFl (compareFlags (s.x a) (s.x b))).advance 3)
  /-- HLT ends the run. -/
  | halts : Effect s .hlt (s.raiseStop .hlt)
  /-- DIV or MOD by 0 stops the run. -/
  | divides {i : Instr} (a b : Reg) (hi : i = .div a b ∨ i = .mod a b) (hb : s.x b = 0#8) :
      Effect s i (s.stopWith .divByZero (some s.pc) .divByZero)
  /-- POP of an empty stack stops the run. -/
  | underflows (a : Reg) (h : 244 ≤ (s.x spReg).toNat) :
      Effect s (.pop a) (s.stopWith .stackUnderflow (some (s.x spReg).toNat) .stackUnderflow)

variable {s t : State} {i : Instr}

/-- A handler that writes a register and advances by its width. -/
theorem Effect.writesReg (hi : isCmp i = false) (r : Reg) (v : Byte) {w : Nat} (hw : w ≤ 3) :
    Effect s i ((s.setReg r v).advance w) :=
  .moves hi (s.regs.set r v) (s.pc + w) (mayReach_add hw)

/-- A handler that only sets pc. -/
theorem Effect.setsPc (hi : isCmp i = false) {p : Nat} (hp : s.MayReach p) : Effect s i (s.setPc p) :=
  .moves hi s.regs p hp

/-- A handler that moves the stack pointer and stores a byte there. -/
theorem Effect.pushes (hi : isCmp i = false) (sp a v : Byte) {p : Nat} (hp : s.MayReach p) :
    Effect s i (((s.setReg spReg sp).storeByte a v).setPc p) := by
  rw [storeByte_eq]
  exact .stores hi (s.regs.set spReg sp) p hp a v

/-- Every instruction runs from every state and has one of the effects. -/
theorem exec_effect (i : Instr) (s : State) : ∃ t, exec i s = .next t ∧ Effect s i t := by
  cases i with
  | hlt => exact ⟨_, rfl, .halts⟩
  | ldi a b => exact ⟨_, rfl, .writesReg rfl a b (w := 3) (by decide)⟩
  | ld a b => exact ⟨_, execLd_eq s a b, .writesReg rfl _ _ (by decide)⟩
  | st a b =>
    refine ⟨_, execSt_eq s a b, ?_⟩
    rw [storeByte_eq]
    exact .stores rfl _ _ (mayReach_add (by decide)) _ _
  | prn a => exact ⟨_, rfl, .prints .prn a (.inl rfl)⟩
  | pra a => exact ⟨_, rfl, .prints .pra a (.inr rfl)⟩
  | add a b => exact ⟨_, execAdd_eq s a b, .writesReg rfl _ _ (by decide)⟩
  | sub a b => exact ⟨_, execSub_eq s a b, .writesReg rfl _ _ (by decide)⟩
  | mul a b => exact ⟨_, execMul_eq s a b, .writesReg rfl _ _ (by decide)⟩
  | div a b =>
    refine ⟨_, execDiv_eq s a b, ?_⟩
    split
    · exact .divides a b (.inl rfl) ‹_›
    · exact .writesReg rfl _ _ (by decide)
  | mod a b =>
    refine ⟨_, execMod_eq s a b, ?_⟩
    split
    · exact .divides a b (.inr rfl) ‹_›
    · exact .writesReg rfl _ _ (by decide)
  | and a b => exact ⟨_, execAnd_eq s a b, .writesReg rfl _ _ (by decide)⟩
  | or a b => exact ⟨_, execOr_eq s a b, .writesReg rfl _ _ (by decide)⟩
  | xor a b => exact ⟨_, execXor_eq s a b, .writesReg rfl _ _ (by decide)⟩
  | shl a b => exact ⟨_, execShl_eq s a b, .writesReg rfl _ _ (by decide)⟩
  | shr a b => exact ⟨_, execShr_eq s a b, .writesReg rfl _ _ (by decide)⟩
  | not a => exact ⟨_, execNot_eq s a, .writesReg rfl _ _ (by decide)⟩
  | addi a b => exact ⟨_, execAddi_eq s a b, .writesReg rfl _ _ (by decide)⟩
  | inc a => exact ⟨_, execInc_eq s a, .writesReg rfl _ _ (by decide)⟩
  | dec a => exact ⟨_, execDec_eq s a, .writesReg rfl _ _ (by decide)⟩
  | push a =>
    refine ⟨_, execPush_eq s a, ?_⟩
    rw [advance_eq_setPc, storeByte_pc]
    exact .pushes rfl _ _ _ (mayReach_add (by decide))
  | pop a =>
    rcases Nat.lt_or_ge (s.x spReg).toNat 244 with h | h
    · exact ⟨_, execPop_eq s a h, .moves rfl _ _ (mayReach_add (by decide))⟩
    · exact ⟨_, execPop_empty s a h, .underflows a h⟩
  | call a => exact ⟨_, execCall_eq s a, .pushes rfl _ _ _ (mayReach_byte _)⟩
  | ret => exact ⟨_, execRet_eq s, .moves rfl _ _ (mayReach_byte _)⟩
  | cmp a b => exact ⟨_, execCmp_eq s a b, .compares a b⟩
  | jmp a => exact ⟨_, execJmp_eq s a, .setsPc rfl (mayReach_byte _)⟩
  | jeq a =>
    refine ⟨_, execJeq_eq s a, .setsPc rfl ?_⟩
    split
    · exact mayReach_byte _
    · exact mayReach_add (by decide)
  | jne a =>
    refine ⟨_, execJne_eq s a, .setsPc rfl ?_⟩
    split
    · exact mayReach_add (by decide)
    · exact mayReach_byte _
  | jgt | jge | jle | int => exact ⟨_, rfl, .setsPc rfl (mayReach_add (w := 2) (by decide))⟩
  | iret | nop => exact ⟨_, rfl, .setsPc rfl (mayReach_add (w := 1) (by decide))⟩

/-- What an instruction has left behind is one of its effects. -/
theorem effect_of_exec (h : exec i s = .next t) : Effect s i t := by
  obtain ⟨u, hu, he⟩ := exec_effect i s
  obtain rfl : u = t := by simpa [hu] using h
  exact he

/-- Everything a step with a next state can be: the launch, an effect of the instruction at pc in the state after the tick,
or a stop before any handler. -/
theorem next_step_cases (h : step s = .next t) :
    (s.halted = true ∧ t = s.startRun) ∨
      (s.halted = false ∧ s.pc < 256 ∧ ∃ i, s.nextAction opcodeMap = .run i s.beginStep ∧ Effect s.beginStep i t) ∨
      (s.halted = false ∧ ∃ events cause, StopsBefore opcodeMap s.beginStep events cause ∧
        t = { s.beginStep with trace := s.beginStep.trace ++ events }.raiseStop cause) := by
  rw [step_eq] at h
  rcases step_cases opcodeMap s with ⟨hh, -, hs⟩ | ⟨-, -, hs⟩ | ⟨hh, i, hn, hp, hs⟩ | ⟨hh, es, c, hc, -, hs⟩ <;>
    rw [hs] at h
  · exact .inl ⟨hh, by simpa using h.symm⟩
  · cases h
  · exact .inr (.inl ⟨hh, hp, i, hn, effect_of_exec h⟩)
  · exact .inr (.inr ⟨hh, es, c, hc, by simpa using h.symm⟩)

end Sys2Proof.Machine
end

section
/-! PROOFS. The invariant (O60). -/

namespace Sys2Proof.Machine

variable {s t : State} {i : Instr}

theorem startRun_keeps_inv (h : s.Inv) : s.startRun.Inv := by
  obtain ⟨hmem, hpc, hfl, -, -⟩ := h
  exact ⟨hmem, hpc, hfl, fun _ => rfl, nofun⟩

/-- The tick touches no field the invariant speaks of. -/
theorem beginStep_keeps_inv (h : s.Inv) : s.beginStep.Inv := h

/-- A stop for any cause but INTERNAL keeps the invariant, whatever it has reported. -/
theorem raiseStop_keeps_inv (events : List Event) {c : HaltCause} (hc : c ≠ .internal) (h : s.Inv) :
    ({ s with trace := s.trace ++ events }.raiseStop c).Inv := by
  obtain ⟨hmem, hpc, hfl, -, -⟩ := h
  exact ⟨hmem, hpc, hfl, nofun, hc⟩

/-- A comparison leaves exactly one flag (R167 of 42_alu.md). -/
theorem compareFlags_one_flag (va vb : Byte) :
    compareFlags va vb = 1#8 ∨ compareFlags va vb = 2#8 ∨ compareFlags va vb = 4#8 := by
  rcases compareFlags_cases va vb with ⟨-, h⟩ | ⟨-, h⟩ | ⟨-, h⟩ <;> simp [h]

/-- Every effect of an instruction that was fetched inside memory keeps the invariant. -/
theorem Effect.keeps_inv (he : Effect s i t) (hlt : s.pc < 256) (h : s.Inv) : t.Inv := by
  have ⟨hmem, _, hfl, hrun, hcause⟩ := h
  cases he with
  | moves _ regs p hp => exact ⟨hmem, hp.le hlt, hfl, hrun, hcause⟩
  | stores _ regs p hp a v => exact ⟨Memory.write_wf v a.isLt hmem, hp.le hlt, hfl, hrun, hcause⟩
  | prints => exact ⟨hmem, (mayReach_add (by decide)).le hlt, hfl, hrun, hcause⟩
  | compares a b =>
    exact ⟨hmem, (mayReach_add (by decide)).le hlt, .inr (compareFlags_one_flag _ _), hrun, hcause⟩
  | halts => simpa using raiseStop_keeps_inv [] (by decide) h
  | divides | underflows => exact raiseStop_keeps_inv [_] (by decide) h

/-- Settles O60: the launch, each effect of an instruction, and each stop before a handler keep the invariant. -/
theorem everyStepKeepsTheInvariant : Obligations.EveryStepKeepsTheInvariant := by
  unfold Obligations.EveryStepKeepsTheInvariant
  intro s t h hst
  rcases next_step_cases hst with ⟨-, rfl⟩ | ⟨-, hpc, i, -, he⟩ | ⟨-, events, cause, hstop, rfl⟩
  · exact startRun_keeps_inv h
  · exact he.keeps_inv hpc (beginStep_keeps_inv h)
  · refine raiseStop_keeps_inv events ?_ (beginStep_keeps_inv h)
    rcases hstop.cause with rfl | rfl | rfl <;> decide

end Sys2Proof.Machine
end

section
/-! PROOFS. What the state rules of 10_state.md say of every instruction and every step: `halted` (O52), the trace (O53),
FL (O47). -/

namespace Sys2Proof.Machine

variable {s t : State} {i : Instr}

/-! ### `halted` and the trace -/

theorem Effect.keeps_halted (he : Effect s i t) (h : s.halted = true) : t.halted = true := by
  cases he with
  | moves | stores | prints | compares => exact h
  | halts | divides | underflows => rfl

/-- Settles O52: a stop sets `halted`, and every other effect leaves it alone. -/
theorem noInstructionClearsHalted : Obligations.NoInstructionClearsHalted := by
  unfold Obligations.NoInstructionClearsHalted
  intro i s t hst h
  exact (effect_of_exec hst).keeps_halted h

theorem Effect.extends_trace (he : Effect s i t) : s.trace <+: t.trace := by
  cases he with
  | moves | stores | compares | halts => exact List.prefix_refl _
  | prints | divides | underflows => exact List.prefix_append _ _

theorem beginStep_trace_prefix (s : State) : s.trace <+: s.beginStep.trace := by
  rw [beginStep_trace]
  split
  · exact List.prefix_append _ _
  · exact List.prefix_refl _

theorem step_trace_prefix (h : step s = .next t) : s.trace <+: t.trace := by
  rcases next_step_cases h with ⟨-, rfl⟩ | ⟨-, -, i, -, he⟩ | ⟨-, events, cause, -, rfl⟩
  · exact List.prefix_refl _
  · exact (beginStep_trace_prefix s).trans he.extends_trace
  · exact (beginStep_trace_prefix s).trans (List.prefix_append _ events)

/-- Settles O53: the tick, each effect of an instruction and each stop before a handler extend the trace. -/
theorem traceIsAppendOnly : Obligations.TraceIsAppendOnly := by
  unfold Obligations.TraceIsAppendOnly
  intro s t h
  obtain ⟨events, he⟩ := step_trace_prefix h
  exact ⟨events, he.symm⟩

/-! ### Who writes FL -/

theorem Effect.keeps_fl (he : Effect s i t) (hi : isCmp i = false) : t.fl = s.fl := by
  cases he with
  | moves | stores | prints | halts | divides | underflows => rfl
  | compares => cases hi

theorem exec_cmp_fl_cases {a b : Reg} (h : exec (.cmp a b) s = .next t) : t.fl = 1#8 ∨ t.fl = 2#8 ∨ t.fl = 4#8 := by
  obtain rfl : _ = t := by simpa [exec, execCmp_eq] using h
  exact compareFlags_one_flag _ _

/-- A step changes FL only by running CMP. -/
theorem step_fl_eq_or_runs_cmp (h : step s = .next t) :
    t.fl = s.fl ∨ ∃ a b u, s.nextAction opcodeMap = .run (.cmp a b) u := by
  rcases next_step_cases h with ⟨-, rfl⟩ | ⟨-, -, i, hn, he⟩ | ⟨-, events, cause, -, rfl⟩
  · exact .inl rfl
  · cases hi : isCmp i with
    | false => exact .inl (he.keeps_fl hi)
    | true =>
      cases i <;> cases hi
      exact .inr ⟨_, _, _, hn⟩
  · exact .inl rfl

theorem hostRun_keeps_fl (h : hostRun s = .next t) : t.fl = s.fl := by
  unfold hostRun at h
  split at h <;> cases h
  rfl

/-! ### Who reads FL -/

variable (s) (f : Byte)

theorem setFl_setReg (r : Reg) (v : Byte) : (s.setFl f).setReg r v = (s.setReg r v).setFl f := rfl

theorem setFl_storeByte (a v : Byte) : (s.setFl f).storeByte a v = (s.storeByte a v).setFl f := by
  rw [storeByte_eq, storeByte_eq]
  rfl

/-- The ALU's handlers do not look at FL. -/
theorem setFl_aluFinish (a : Reg) (w : Nat) (op : Byte) (r : AluResult) :
    (s.setFl f).aluFinish a w op r = (s.aluFinish a w op r).setFl f := by
  cases r <;> rfl

/-- JEQ and JNE, the two instructions that read FL (R30 of 10_state.md). -/
def testsFlag : Instr → Bool
  | .jeq _ | .jne _ => true
  | _ => false

theorem testsFlag_eq_false {i : Instr} (hq : ∀ a, i ≠ .jeq a) (hn : ∀ a, i ≠ .jne a) : testsFlag i = false := by
  cases i with
  | jeq a => exact absurd rfl (hq a)
  | jne a => exact absurd rfl (hn a)
  | _ => rfl

/-- Every instruction but CMP carries FL along and does the same whatever it is; JEQ and JNE do where bit 0 is the same. -/
theorem exec_setFl (hi : isCmp i = false) (hf : testsFlag i = true → f.getLsbD 0 = s.fl.getLsbD 0) :
    ∃ t, exec i s = .next t ∧ exec i (s.setFl f) = .next (t.setFl f) := by
  cases i with
  | cmp => cases hi
  | jeq a => exact ⟨_, execJeq_eq s a, by rw [exec, execJeq_eq, setFl_fl, hf rfl]; rfl⟩
  | jne a => exact ⟨_, execJne_eq s a, by rw [exec, execJne_eq, setFl_fl, hf rfl]; rfl⟩
  | add | sub | mul | div | mod | and | or | xor | shl | shr | not =>
    exact ⟨_, rfl, congrArg Host.Outcome.next (setFl_aluFinish s f _ _ _ _)⟩
  | st a b => exact ⟨_, execSt_eq s a b, by rw [exec, execSt_eq, setFl_storeByte]; rfl⟩
  | push a => exact ⟨_, execPush_eq s a, by rw [exec, execPush_eq, setFl_setReg, setFl_storeByte]; rfl⟩
  | call a => exact ⟨_, execCall_eq s a, by rw [exec, execCall_eq, setFl_setReg, setFl_storeByte]; rfl⟩
  | pop a =>
    rcases Nat.lt_or_ge (s.x spReg).toNat 244 with h | h
    · exact ⟨_, execPop_eq s a h, execPop_eq (s.setFl f) a h⟩
    · exact ⟨_, execPop_empty s a h, execPop_empty (s.setFl f) a h⟩
  | hlt | ldi | ld | prn | pra | addi | inc | dec | ret | jmp | jgt | jge | jle | int | iret | nop =>
    exact ⟨_, rfl, rfl⟩

variable {s f}

theorem exec_setFl_of_next (h : exec i s = .next t) (hi : isCmp i = false)
    (hf : testsFlag i = true → f.getLsbD 0 = s.fl.getLsbD 0) : exec i (s.setFl f) = .next (t.setFl f) := by
  obtain ⟨u, hu, hr⟩ := exec_setFl s f hi hf
  obtain rfl : u = t := by simpa [hu] using h
  exact hr

/-- Settles O47: FL is written by CMP alone (`Effect.keeps_fl`, `step_fl_eq_or_runs_cmp`) and read by JEQ and JNE alone
(`exec_setFl`). -/
theorem onlyCmpWritesAndJeqJneReadFlags : Obligations.OnlyCmpWritesAndJeqJneReadFlags := by
  unfold Obligations.OnlyCmpWritesAndJeqJneReadFlags
  refine ⟨fun a b s t => exec_cmp_fl_cases, fun i s t h hc => (effect_of_exec h).keeps_fl (isCmp_eq_false.mpr hc),
    fun s t => step_fl_eq_or_runs_cmp, ?_, fun a b s f => rfl, ?_, ?_, rfl, fun s t => hostRun_keeps_fl, ?_⟩
  · intro i s t f h hc hq hn
    exact exec_setFl_of_next h (isCmp_eq_false.mpr hc) (by simp [testsFlag_eq_false hq hn])
  · exact fun a s t f hf h => exec_setFl_of_next h rfl fun _ => hf
  · exact fun a s t f hf h => exec_setFl_of_next h rfl fun _ => hf
  · intro a s h
    simp [exec, execJeq_eq, execJne_eq, h, advance_eq_setPc]

end Sys2Proof.Machine
end

section
/-! PROOFS. The dispatch table (O9). -/

namespace Sys2Proof

/-- The fixed opcodes of the default map are distinct, whatever ADDI's byte is. -/
theorem defaultOpcodes_fixed_nodup (addi : Byte) : ((defaultOpcodes addi).fixedEntries.map Prod.fst).Nodup := by
  show ((defaultOpcodes 0).fixedEntries.map Prod.fst).Nodup
  decide

/-- The machine's own map has no duplicates (R75, R79 of 30_encoding.md). -/
theorem opcodeMap_distinct : opcodeMap.Distinct := by
  have hne : ∀ op ∈ opcodeMap.fixedEntries.map Prod.fst, op ≠ opcAddi := by
    intro op hop
    obtain ⟨e, he, rfl⟩ := List.mem_map.mp hop
    exact opcAddi_ne he
  show (opcodeMap.dispatchTable.map Prod.fst).Nodup
  rw [OpcodeMap.dispatchTable, List.map_append, List.nodup_append]
  refine ⟨defaultOpcodes_fixed_nodup opcAddi, List.nodup_singleton _, fun op hop b hb => ?_⟩
  obtain rfl : b = opcAddi := List.mem_singleton.mp hb
  exact hne op hop

/-- An instruction that a format makes, with every operand 0. -/
def Format.sample : Format → Instr
  | .f0 i => i
  | .f1R mk => mk 0
  | .f1U mk => mk 0
  | .f2RR mk => mk 0 0
  | .f2RI mk => mk 0 0
  | .f2MR mk => mk 0 0

/-- Each entry of the dispatch table stands at the opcode byte of the instructions it makes. -/
theorem OpcodeMap.opcodeOf_samples (m : OpcodeMap) :
    m.dispatchTable.map (fun e => m.opcodeOf e.2.sample) = m.dispatchTable.map Prod.fst := rfl

theorem OpcodeMap.opcodeOf_sample {m : OpcodeMap} {op : Byte} {f : Format} (h : m.lookup op = some f) :
    m.opcodeOf f.sample = op :=
  List.map_inj_left.mp m.opcodeOf_samples (op, f) (OpcodeMap.mem_of_lookup h)

/-- Settles O9: every instruction has its entry (`entry_of_instr`), and every entry its instruction (`opcodeOf_sample`). -/
theorem dispatchTableHasOneEntryPerOpcode : Obligations.DispatchTableHasOneEntryPerOpcode := by
  unfold Obligations.DispatchTableHasOneEntryPerOpcode
  refine ⟨opcodeMap_distinct, fun m hm => ⟨rfl, hm, fun i => ?_, fun op f h => ⟨f.sample, OpcodeMap.opcodeOf_sample h⟩⟩⟩
  obtain ⟨f, hf, hk, -⟩ := m.entry_of_instr i
  exact ⟨f, OpcodeMap.lookup_of_mem hm hf, hk⟩

end Sys2Proof
end

section
/-! SUPPORT. The requests of a step: what the fetch asks for, what an instruction asks for, and that memory after an
instruction is memory before with its requests applied (R53, R64 of 20_memory.md). -/

namespace Sys2Proof.Machine

variable {m : OpcodeMap} {s t : State} {i : Instr} {q : MemRequest}

/-! ### The fetch -/

/-- No opcode asks for more than three bytes (R70 of 30_encoding.md). -/
theorem widthOf_le_three (m : OpcodeMap) (op : Byte) : m.widthOf op ≤ 3 := by
  unfold OpcodeMap.widthOf
  rcases m.lookup op with _ | f
  · decide
  · cases f <;> simp [Format.width, Format.kinds]

theorem operandRequests_length (s : State) (n a : Nat) : (operandRequests s n a).length ≤ n := by
  induction n generalizing a with
  | zero => exact Nat.le_refl 0
  | succ n ih =>
    rw [operandRequests, List.length_cons]
    split
    · exact Nat.succ_le_succ (ih (a + 1))
    · exact Nat.succ_le_succ (Nat.zero_le n)

/-- The operand fetch only reads, from the addresses of the operand bytes. -/
theorem mem_operandRequests {n a : Nat} (h : q ∈ operandRequests s n a) : ∃ b, q = readRequest s b ∧ b < a + n := by
  induction n generalizing a with
  | zero => cases h
  | succ n ih =>
    rw [operandRequests, List.mem_cons] at h
    rcases h with rfl | h
    · exact ⟨a, rfl, by omega⟩
    · split at h
      · obtain ⟨b, hq, hb⟩ := ih h
        exact ⟨b, hq, by omega⟩
      · cases h

/-- The fetch of an opcode in memory goes on to its operand bytes. -/
theorem fetchRequests_of_lt (m : OpcodeMap) (h : s.pc < 256) : fetchRequests m s =
    readRequest s s.pc :: operandRequests s (m.widthOf (s.mem.read s.pc) - 1) (s.pc + 1) := by
  rw [fetchRequests, peek_of_lt s h]

/-- The fetch of an opcode outside memory ends with the opcode (R102 of 40_execution_loop.md). -/
theorem fetchRequests_of_ge (m : OpcodeMap) (h : 256 ≤ s.pc) : fetchRequests m s = [readRequest s s.pc] := by
  rw [fetchRequests, peek_of_ge s h]

theorem fetchRequests_length (m : OpcodeMap) (s : State) : (fetchRequests m s).length ≤ 3 := by
  rcases Nat.lt_or_ge s.pc 256 with h | h
  · have hw := widthOf_le_three m (s.mem.read s.pc)
    have hl := operandRequests_length s (m.widthOf (s.mem.read s.pc) - 1) (s.pc + 1)
    rw [fetchRequests_of_lt m h, List.length_cons]
    omega
  · rw [fetchRequests_of_ge m h]
    simp

/-- The fetch only reads, at pc or, where pc lies in memory, up to two bytes after it. -/
theorem mem_fetchRequests (h : q ∈ fetchRequests m s) :
    ∃ b, q = readRequest s b ∧ (b = s.pc ∨ s.pc < 256 ∧ b ≤ s.pc + 2) := by
  rcases Nat.lt_or_ge s.pc 256 with hp | hp
  · rw [fetchRequests_of_lt m hp, List.mem_cons] at h
    rcases h with rfl | h
    · exact ⟨s.pc, rfl, .inl rfl⟩
    · obtain ⟨b, hq, hb⟩ := mem_operandRequests h
      have hw := widthOf_le_three m (s.mem.read s.pc)
      exact ⟨b, hq, .inr ⟨hp, by omega⟩⟩
  · rw [fetchRequests_of_ge m hp, List.mem_singleton] at h
    exact ⟨s.pc, h, .inl rfl⟩

theorem foldl_apply_fetchRequests (m : OpcodeMap) (s : State) (mem : Memory) :
    (fetchRequests m s).foldl MemRequest.apply mem = mem := by
  refine foldl_apply_reads _ mem fun q hq => ?_
  obtain ⟨b, rfl, -⟩ := mem_fetchRequests hq
  rfl

/-- The first byte the fetch reads is the byte an observer sees at pc. -/
theorem fetchBytes_head? (m : OpcodeMap) (s : State) : (s.fetchBytes m).1.head? = s.peek s.pc := by
  rcases Nat.lt_or_ge s.pc 256 with h | h
  · rw [State.fetchBytes, memRead_of_lt s h, peek_of_lt s h]
    rfl
  · rw [State.fetchBytes, memRead_of_ge s h, peek_of_ge s h]
    rfl

/-! ### The data accesses of an instruction -/

/-- The requests of at most one read and, after it, at most one write, at 8-bit addresses. -/
def byteRequests (s : State) (read : Option Byte) (write : Option (Byte × Byte)) : List MemRequest :=
  read.toList.map (fun a => readRequest s a.toNat) ++ write.toList.map (fun w => writeRequest w.1.toNat w.2)

/-- The data accesses of every instruction have that form (the table of R53 of 20_memory.md). -/
theorem dataRequests_eq_byteRequests (i : Instr) (s : State) :
    ∃ read write, dataRequests i s = byteRequests s read write := by
  cases i with
  | ld _ b => exact ⟨some (s.regAddress b), none, rfl⟩
  | st a b => exact ⟨some a, some (s.indirectAddress a, s.regOperand b), rfl⟩
  | push a => exact ⟨none, some (s.decSp.sp, s.decSp.regOperand a), rfl⟩
  | call _ => exact ⟨none, some (s.decSp.sp, s.returnAddress), rfl⟩
  | pop _ =>
    rw [dataRequests]
    split
    · exact ⟨none, none, rfl⟩
    · exact ⟨some s.sp, none, rfl⟩
  | ret => exact ⟨some s.sp, none, rfl⟩
  | _ => exact ⟨none, none, rfl⟩

theorem dataRequests_length (i : Instr) (s : State) : (dataRequests i s).length ≤ 2 := by
  obtain ⟨read, write, h⟩ := dataRequests_eq_byteRequests i s
  rw [h]
  cases read <;> cases write <;> simp [byteRequests]

/-- A data access is a read or a write at an 8-bit address (R54 of 20_memory.md). -/
theorem mem_dataRequests (h : q ∈ dataRequests i s) :
    (∃ a : Byte, q = readRequest s a.toNat) ∨ ∃ a v : Byte, q = writeRequest a.toNat v := by
  obtain ⟨read, write, he⟩ := dataRequests_eq_byteRequests i s
  rw [he, byteRequests, List.mem_append, List.mem_map, List.mem_map] at h
  rcases h with ⟨a, -, rfl⟩ | ⟨w, -, rfl⟩
  · exact .inl ⟨a, rfl⟩
  · exact .inr ⟨w.1, w.2, rfl⟩

/-- A read from an 8-bit address is never out of range. -/
theorem readRequest_err_byte (s : State) (a : Byte) : (readRequest s a.toNat).err = false :=
  decide_eq_false (Nat.not_le.mpr a.isLt)

/-- No data access presents an address out of range (R54 of 20_memory.md). -/
theorem dataRequests_addr_lt (h : q ∈ dataRequests i s) : q.addr < 256 := by
  rcases mem_dataRequests h with ⟨a, rfl⟩ | ⟨a, v, rfl⟩ <;> exact a.isLt

/-- A write among the data accesses is the only one: it accounts for all they do to memory. -/
theorem foldl_apply_dataRequests_of_write (h : q ∈ dataRequests i s) (hw : q.we = true) (mem : Memory) :
    ∃ a v : Byte, q = writeRequest a.toNat v ∧
      (dataRequests i s).foldl MemRequest.apply mem = mem.write a.toNat v := by
  obtain ⟨read, write, he⟩ := dataRequests_eq_byteRequests i s
  rw [he] at h ⊢
  rw [byteRequests, List.mem_append, List.mem_map, List.mem_map] at h
  rcases h with ⟨a, -, rfl⟩ | ⟨w, hm, rfl⟩
  · cases hw
  · obtain rfl : write = some w := Option.mem_toList.mp hm
    refine ⟨w.1, w.2, rfl, ?_⟩
    cases read <;> exact writeRequest_apply_byte w.1 w.2 mem

/-- Whatever the ALU answers, its handlers leave memory alone. -/
theorem aluFinish_mem (s : State) (a : Reg) (w : Nat) (op : Byte) (r : AluResult) :
    (s.aluFinish a w op r).mem = s.mem := by
  cases r <;> rfl

/-- A store does to memory what its write request says. -/
theorem storeByte_mem_eq_apply (s : State) (a v : Byte) :
    (s.storeByte a v).mem = (writeRequest a.toNat v).apply s.mem := by
  rw [storeByte_mem, writeRequest_apply_byte]

/-- Every instruction does to memory what its data accesses say, and nothing else. -/
theorem exec_applies_dataRequests (i : Instr) (s : State) :
    ∃ t, exec i s = .next t ∧ t.mem = (dataRequests i s).foldl MemRequest.apply s.mem := by
  cases i with
  | st | push | call => exact ⟨_, rfl, storeByte_mem_eq_apply _ _ _⟩
  | pop a =>
    rcases Nat.lt_or_ge (s.x spReg).toNat 244 with h | h
    · exact ⟨_, execPop_eq s a h, by simp [dataRequests, Nat.not_le.mpr h]⟩
    · exact ⟨_, execPop_empty s a h, by simp [dataRequests, h]⟩
  | add | sub | mul | div | mod | and | or | xor | shl | shr | not => exact ⟨_, rfl, aluFinish_mem _ _ _ _ _⟩
  | jeq a => exact ⟨_, execJeq_eq s a, rfl⟩
  | jne a => exact ⟨_, execJne_eq s a, rfl⟩
  | hlt | ldi | ld | prn | pra | addi | inc | dec | ret | cmp | jmp | jgt | jge | jle | int | iret | nop =>
    exact ⟨_, rfl, rfl⟩

theorem mem_of_exec (h : exec i s = .next t) : t.mem = (dataRequests i s).foldl MemRequest.apply s.mem := by
  obtain ⟨u, hu, hm⟩ := exec_applies_dataRequests i s
  obtain rfl : u = t := by simpa [hu] using h
  exact hm

/-! ### The whole step -/

/-- The launch asks for nothing. -/
theorem stepRequests_constructed (h : s.halted = true) (hc : s.haltCause = .none) : s.stepRequests m = [] := by
  simp [State.stepRequests, State.nextAction, h, hc]

theorem stepRequests_of_run {u : State} (h : s.nextAction m = .run i u) :
    s.stepRequests m = fetchRequests m s ++ dataRequests i u := by
  rw [State.stepRequests, h]

theorem stepRequests_of_stopped {u : State} (h : s.nextAction m = .stopped u) :
    s.stepRequests m = fetchRequests m s := by
  rw [State.stepRequests, h]

end Sys2Proof.Machine
end

section
/-! PROOFS. The memory interface: its two operations (O4, O6, O7), read after write (O8), and the requests of a step
(O56, O57, O58). -/

namespace Sys2Proof.Machine

/-! ### MemRead and MemWrite -/

/-- MemWrite in range changes the byte at its address (R52 of 20_memory.md). -/
theorem memWrite_peek_same (s : State) {a : Nat} (v : Byte) (h : a < 256) : (s.memWrite a v).peek a = some v := by
  rw [memWrite_of_lt s v h, peek_of_lt _ h, Memory.read_write, if_pos rfl]

/-- MemWrite changes no byte at another address, in range or out of range (R52 of 20_memory.md). -/
theorem memWrite_peek_ne (s : State) {a b : Nat} (v : Byte) (h : b ≠ a) : (s.memWrite a v).peek b = s.peek b := by
  unfold State.memWrite
  split
  · simp only [State.peek, Memory.read_write, if_neg h.symm]
  · rfl

/-- MemWrite leaves everything but memory and the trace alone, in range and out of range. -/
theorem memWrite_frame (s : State) (a : Nat) (v : Byte) : SameRegsBut [] s (s.memWrite a v) ∧
    (s.memWrite a v).pc = s.pc ∧ (s.memWrite a v).fl = s.fl ∧ SameRunState s (s.memWrite a v) ∧
    SameDraws s (s.memWrite a v) := by
  unfold State.memWrite
  split <;> exact ⟨fun _ _ => rfl, rfl, rfl, ⟨rfl, rfl⟩, rfl, rfl⟩

/-- Settles O7: in range the cell is written (`memWrite_peek_same`, `memWrite_peek_ne`), out of range MemWrite is the
report alone (`memWrite_of_ge`). -/
theorem memWriteChangesOneCellOrReports : Obligations.MemWriteChangesOneCellOrReports := by
  unfold Obligations.MemWriteChangesOneCellOrReports
  refine fun s a v => ⟨fun h => ⟨memWrite_peek_same s v h, fun b hb => memWrite_peek_ne s v hb, ?_⟩, fun h => ?_,
    memWrite_frame s a v⟩
  · rw [memWrite_of_lt s v h]
  · rw [memWrite_of_ge s v h]
    exact ⟨fun _ => rfl, rfl⟩

/-- Settles O4: the loader's write is MemWrite (R65 of 20_memory.md). -/
theorem loadWriteIsBoundsChecked : Obligations.LoadWriteIsBoundsChecked := by
  unfold Obligations.LoadWriteIsBoundsChecked
  exact memWriteChangesOneCellOrReports

/-- Settles O6: no data access is out of range (`dataRequests_addr_lt`), and the two outcomes of MemRead. -/
theorem memReadReturnsTheByteOrReports : Obligations.MemReadReturnsTheByteOrReports := by
  unfold Obligations.MemReadReturnsTheByteOrReports
  exact fun s a => ⟨fun i q => dataRequests_addr_lt, fun h => ⟨_, peek_of_lt s h, memRead_of_lt s h⟩,
    fun h => ⟨_, memRead_of_ge s h, rfl, fun _ _ => rfl, rfl, rfl, fun _ => rfl, ⟨rfl, rfl⟩, rfl, rfl⟩⟩

/-! ### Read after write -/

/-- Settles O8, by induction on the writes from the last one back: it is the write to `a`, or it leaves `a` alone. -/
theorem readsSeeTheMostRecentWrite : Obligations.ReadsSeeTheMostRecentWrite := by
  unfold Obligations.ReadsSeeTheMostRecentWrite
  intro s writes a ha
  induction writes using List.reverseRecOn with
  | nil => rfl
  | append_singleton writes w ih =>
    rw [List.foldl_append, List.foldl_cons, List.foldl_nil, List.reverse_append, List.reverse_singleton,
      List.singleton_append]
    by_cases hw : w.1 = a
    · rw [List.find?_cons_of_pos (by simpa using hw), ← hw, memWrite_peek_same _ _ (hw ▸ ha)]
    · rw [memWrite_peek_ne _ _ (Ne.symm hw), ih, List.find?_cons_of_neg (by simpa using hw)]

/-- Settles O56: the write request is all the instruction does to memory (`foldl_apply_dataRequests_of_write`), and the
fetch that follows begins with the byte at pc (`fetchBytes_head?`), whatever the tick draws. -/
theorem storesAreSeenByTheNextFetch : Obligations.StoresAreSeenByTheNextFetch := by
  unfold Obligations.StoresAreSeenByTheNextFetch
  intro i s t q h hq hw hpc
  obtain ⟨a, v, rfl, hfold⟩ := foldl_apply_dataRequests_of_write hq hw s.mem
  have hmem : t.mem = s.mem.write a.toNat v := (mem_of_exec h).trans hfold
  have hpc : t.pc = a.toNat := hpc.symm
  rw [fetchBytes_head?, beginStep_peek, beginStep_pc, hpc, peek_of_lt t a.isLt, hmem, Memory.read_write, if_pos rfl,
    writeRequest_wdata]

/-! ### The requests of a step -/

/-- Settles O57: the launch and the stops before a handler leave memory alone and so do the reads of the fetch; an
instruction does what its data accesses say (`mem_of_exec`). -/
theorem requestsAccountForEveryMemoryChange : Obligations.RequestsAccountForEveryMemoryChange := by
  unfold Obligations.RequestsAccountForEveryMemoryChange
  intro s t h
  rw [step_eq] at h
  rcases step_cases opcodeMap s with ⟨hh, hc, hs⟩ | ⟨-, -, hs⟩ | ⟨-, i, hn, -, hs⟩ | ⟨-, es, c, -, hn, hs⟩ <;>
    rw [hs] at h
  · cases h
    rw [stepRequests_constructed hh hc, startRun_mem, List.foldl_nil]
  · cases h
  · rw [stepRequests_of_run hn, List.foldl_append, foldl_apply_fetchRequests, mem_of_exec h, beginStep_mem]
  · cases h
    rw [stepRequests_of_stopped hn, foldl_apply_fetchRequests]
    rfl

/-- Settles O58: every fetch request is a read at pc or up to two bytes after it (`mem_fetchRequests`), and every data
access a read or a write at an 8-bit address (`mem_dataRequests`). -/
theorem requestsAreBoundedAndAnswered : Obligations.RequestsAreBoundedAndAnswered := by
  unfold Obligations.RequestsAreBoundedAndAnswered
  refine fun s => ⟨fetchRequests_length opcodeMap s, fun q hq => ?_, fun i => ⟨dataRequests_length i s, fun q hq => ?_⟩⟩
  · obtain ⟨b, rfl, hb⟩ := mem_fetchRequests hq
    refine ⟨rfl, rfl, readRequest_err s b, fun hpc => ?_⟩
    show b ≤ 258
    omega
  · refine ⟨dataRequests_addr_lt hq, ?_⟩
    rcases mem_dataRequests hq with ⟨a, rfl⟩ | ⟨a, v, rfl⟩
    · exact ⟨readRequest_err_byte s a, fun _ => rfl⟩
    · exact ⟨writeRequest_err_byte a v, nofun⟩

end Sys2Proof.Machine
end

section
/-! PROOFS. Encoding and decoding: decode after encode (O12), encode after decode (O13), the width (O11), the unknown
opcodes (O10), words of the spec (O14). -/

namespace Sys2Proof

variable {m : OpcodeMap} {op : Byte} {f : Format} {i : Instr}

/-! ### Decoding what was encoded -/

/-- An encoding is the opcode byte and, after it, the operand bytes (R71 of 30_encoding.md). -/
theorem OpcodeMap.encode_eq_cons (m : OpcodeMap) (i : Instr) : m.encode i = m.opcodeOf i :: m.operandsOf i := by
  cases i <;> rfl

/-- Decoding bytes whose opcode is known is decoding the operand bytes by its format. -/
theorem OpcodeMap.decode_cons_of_lookup (h : m.lookup op = some f) (rest : List Byte) :
    m.decode (op :: rest) = f.decodeFields rest := by
  rw [OpcodeMap.decode, h]

/-- The decoder reads an encoded instruction back: its entry is found by its opcode byte, and makes it of its operand
bytes (`entry_of_instr`). -/
theorem OpcodeMap.decode_encode (hm : m.Distinct) (i : Instr) (rest : List Byte) :
    m.decode (m.encode i ++ rest) = .ok i rest := by
  obtain ⟨f, hf, -, hdec⟩ := m.entry_of_instr i
  rw [m.encode_eq_cons i, List.cons_append, OpcodeMap.decode_cons_of_lookup (OpcodeMap.lookup_of_mem hm hf), hdec]

/-- Settles O12, by `OpcodeMap.decode_encode`; the machine's own map has no duplicates (`opcodeMap_distinct`). -/
theorem decodeOfEncodeIsTheInstruction : Obligations.DecodeOfEncodeIsTheInstruction := by
  unfold Obligations.DecodeOfEncodeIsTheInstruction
  exact ⟨opcodeMap_distinct, fun m hm => OpcodeMap.decode_encode hm⟩

/-! ### Encoding what was decoded -/

/-- Every instruction that the format makes is encoded as `op` and the bytes of its operands, in field order. -/
def Format.EncodedAs (m : OpcodeMap) (op : Byte) : Format → Prop
  | .f0 i => m.encode i = [op]
  | .f1R mk => ∀ a, m.encode (mk a) = [op, regByte a]
  | .f1U mk => ∀ a, m.encode (mk a) = [op, a]
  | .f2RR mk => ∀ a b, m.encode (mk a b) = [op, regByte a, regByte b]
  | .f2RI mk => ∀ a b, m.encode (mk a b) = [op, regByte a, b]
  | .f2MR mk => ∀ a b, m.encode (mk a b) = [op, a, regByte b]

/-- The dispatch table and the encoder have the same opcode byte and operand fields, entry by entry. -/
theorem OpcodeMap.encodedAs_of_mem (h : (op, f) ∈ m.dispatchTable) : f.EncodedAs m op := by
  fin_cases h <;> simp [Format.EncodedAs, OpcodeMap.encode]

/-- Operand bytes that a format decodes are those of the instruction's encoding: a register field is the byte of its
register (`regField_eq_some`), every other field is kept. -/
theorem Format.EncodedAs.eq_of_decodeFields (he : f.EncodedAs m op) {fields rest : List Byte}
    (h : f.decodeFields fields = .ok i rest) : op :: fields = m.encode i ++ rest := by
  cases f with
  | f0 j =>
    cases h
    exact congrArg (· ++ fields) he.symm
  | f1R mk =>
    rcases fields with _ | ⟨a, fields⟩
    · cases h
    · cases ha : regField a <;> simp only [Format.decodeFields, ha] at h <;> cases h
      rw [regField_eq_some.mp ha]
      exact congrArg (· ++ rest) (he _).symm
  | f1U mk =>
    rcases fields with _ | ⟨a, fields⟩ <;> cases h
    exact congrArg (· ++ rest) (he a).symm
  | f2RR mk =>
    rcases fields with _ | ⟨a, _ | ⟨b, fields⟩⟩
    · cases h
    · cases h
    · cases ha : regField a <;> cases hb : regField b <;> simp only [Format.decodeFields, ha, hb] at h <;> cases h
      rw [regField_eq_some.mp ha, regField_eq_some.mp hb]
      exact congrArg (· ++ rest) (he _ _).symm
  | f2RI mk =>
    rcases fields with _ | ⟨a, _ | ⟨b, fields⟩⟩
    · cases h
    · cases h
    · cases ha : regField a <;> simp only [Format.decodeFields, ha] at h <;> cases h
      rw [regField_eq_some.mp ha]
      exact congrArg (· ++ rest) (he _ b).symm
  | f2MR mk =>
    rcases fields with _ | ⟨a, _ | ⟨b, fields⟩⟩
    · cases h
    · cases h
    · cases hb : regField b <;> simp only [Format.decodeFields, hb] at h <;> cases h
      rw [regField_eq_some.mp hb]
      exact congrArg (· ++ rest) (he a _).symm

/-- Bytes that decode to an instruction are its encoding and what is left over. -/
theorem OpcodeMap.eq_encode_of_decode {bytes rest : List Byte} (h : m.decode bytes = .ok i rest) :
    bytes = m.encode i ++ rest := by
  rcases bytes with _ | ⟨op, fields⟩
  · cases h
  · cases hl : m.lookup op with
    | none =>
      rw [OpcodeMap.decode, hl] at h
      cases h
    | some f =>
      rw [OpcodeMap.decode_cons_of_lookup hl] at h
      exact (OpcodeMap.encodedAs_of_mem (OpcodeMap.mem_of_lookup hl)).eq_of_decodeFields h

/-- Settles O13, by `OpcodeMap.eq_encode_of_decode`. -/
theorem encodeOfDecodeIsTheBytes : Obligations.EncodeOfDecodeIsTheBytes := by
  unfold Obligations.EncodeOfDecodeIsTheBytes
  exact fun m bytes i rest => OpcodeMap.eq_encode_of_decode

/-! ### The width -/

theorem OpcodeMap.encode_length (m : OpcodeMap) (i : Instr) : (m.encode i).length = i.width := by
  cases i <;> rfl

/-- No instruction has more than two operands (R70 of 30_encoding.md). -/
theorem Instr.kinds_length_le (i : Instr) : i.kinds.length ≤ 2 := by
  cases i <;> simp [Instr.kinds]

/-- The length of an encoding is what its opcode byte alone says (R70, R77 of 30_encoding.md). -/
theorem OpcodeMap.encode_length_eq_widthOf (hm : m.Distinct) (i : Instr) :
    (m.encode i).length = m.widthOf (m.opcodeOf i) := by
  rw [m.encode_length i, lookup_opcodeOf_width hm]

/-- The decoder uses up as many bytes as the opcode byte says: they are the encoding of what it decodes. -/
theorem OpcodeMap.length_of_decode (hm : m.Distinct) {rest tail : List Byte} (h : m.decode (op :: rest) = .ok i tail) :
    1 + rest.length = m.widthOf op + tail.length := by
  have hb : op :: rest = m.encode i ++ tail := OpcodeMap.eq_encode_of_decode h
  have hop : op = m.opcodeOf i := by
    rw [m.encode_eq_cons i] at hb
    exact (List.cons.inj hb).1
  have hlen := congrArg List.length hb
  rw [List.length_cons, List.length_append, OpcodeMap.encode_length_eq_widthOf hm, ← hop] at hlen
  omega

/-- Settles O11: the width of an encoding is that of its opcode byte (`encode_length_eq_widthOf`), and the decoder uses up
exactly an encoding (`length_of_decode`). -/
theorem widthIsAFunctionOfTheOpcodeByte : Obligations.WidthIsAFunctionOfTheOpcodeByte := by
  unfold Obligations.WidthIsAFunctionOfTheOpcodeByte
  refine fun m hm => ⟨fun i => ⟨m.encode_length i, i.kinds_length_le⟩, fun i j hij => ?_,
    fun op rest i tail => OpcodeMap.length_of_decode hm⟩
  rw [OpcodeMap.encode_length_eq_widthOf hm, OpcodeMap.encode_length_eq_widthOf hm, hij]

/-! ### Unknown opcodes -/

/-- The 256 byte values, in rising order. -/
def allBytes : List Byte := (List.range 256).map (BitVec.ofNat 8)

theorem mem_allBytes (b : Byte) : b ∈ allBytes :=
  List.mem_map.mpr ⟨b.toNat, List.mem_range.mpr b.isLt, by simp⟩

theorem allBytes_nodup : allBytes.Nodup := by
  refine List.nodup_range.map_on fun a ha b hb h => ?_
  simpa [Nat.mod_eq_of_lt (List.mem_range.mp ha), Nat.mod_eq_of_lt (List.mem_range.mp hb)] using congrArg BitVec.toNat h

/-- The known opcodes are the bytes of the dispatch table. -/
theorem OpcodeMap.lookup_isSome (m : OpcodeMap) (op : Byte) :
    (m.lookup op).isSome = true ↔ op ∈ m.dispatchTable.map Prod.fst := by
  simp [OpcodeMap.lookup]

/-- Under a map without duplicates 34 byte values are known opcodes: the bytes of the dispatch table, each once. -/
theorem OpcodeMap.known_length (hm : m.Distinct) : (allBytes.filter fun op => (m.lookup op).isSome).length = 34 := by
  have hperm : (allBytes.filter fun op => (m.lookup op).isSome).Perm (m.dispatchTable.map Prod.fst) := by
    refine (List.perm_ext_iff_of_nodup (allBytes_nodup.filter _) hm).mpr fun op => ?_
    rw [List.mem_filter, m.lookup_isSome, and_iff_right (mem_allBytes op)]
  exact hperm.length_eq

/-- The other 222 are unknown (R78 of 30_encoding.md). -/
theorem OpcodeMap.unknown_length (hm : m.Distinct) : (allBytes.filter fun op => (m.lookup op).isNone).length = 222 := by
  have hall : allBytes.length = 256 := by simp [allBytes]
  have hsplit := List.length_eq_length_filter_add (l := allBytes) fun op => (m.lookup op).isSome
  simp only [Option.not_isSome, hall, OpcodeMap.known_length hm] at hsplit
  omega

/-- Settles O10: the machine's map has no duplicates, so all but its 34 bytes are unknown (`unknown_length`). -/
theorem unknownOpcodeBytesAre222 : Obligations.UnknownOpcodeBytesAre222 := by
  unfold Obligations.UnknownOpcodeBytesAre222
  have h := OpcodeMap.unknown_length opcodeMap_distinct
  rw [allBytes, List.filter_map, List.length_map] at h
  exact h

/-! ### Words of the spec -/

/-- Settles O14: each of the six words is the encoding of its instruction, and is decoded back by
`OpcodeMap.decode_encode`; the last two are rejected by the check of their operand bytes. -/
theorem decodesWordsOfTheSpec : Obligations.DecodesWordsOfTheSpec := by
  unfold Obligations.DecodesWordsOfTheSpec
  have hdec := fun i => OpcodeMap.decode_encode opcodeMap_distinct i []
  exact ⟨hdec (.ldi 3 255), hdec (.st 200 0), hdec (.cmp 2 3), hdec (.call 7), hdec (.jgt 200), hdec .hlt, rfl, rfl⟩

end Sys2Proof
end

section
/-! SUPPORT. What fetch and decode make of the bytes at pc, for every opcode map, and the shapes of a stop (R102 to R106 of
40_execution_loop.md). -/

namespace Sys2Proof

/-- Decoding uses up one byte for each operand kind of the format (R70 of 30_encoding.md). -/
theorem Format.length_of_decodeFields {f : Format} {fields rest : List Byte} {i : Instr}
    (h : f.decodeFields fields = .ok i rest) : fields.length = f.kinds.length + rest.length := by
  cases f <;> rcases fields with _ | ⟨a, _ | ⟨b, fields⟩⟩ <;> grind [Format.decodeFields, Format.kinds]

end Sys2Proof

namespace Sys2Proof.Machine

variable {m : OpcodeMap} {s t : State} {op v : Byte} {fields : List Byte} {f : Format}

/-! ### The bytes at pc -/

/-- A byte that an observer sees lies inside memory. -/
theorem peek_eq_some {a : Nat} : s.peek a = some v ↔ a < 256 ∧ s.mem.read a = v := by
  rcases Nat.lt_or_ge a 256 with h | h
  · simp [peek_of_lt s h, h]
  · simp [peek_of_ge s h, Nat.not_lt.mpr h]

/-- MemRead answers the byte that an observer sees (R51 of 20_memory.md). -/
theorem memRead_of_peek {a : Nat} (h : s.peek a = some v) : s.memRead a = (some v, s) := by
  obtain ⟨ha, rfl⟩ := peek_eq_some.mp h
  exact memRead_of_lt s ha

theorem bytesAtPc_cons {vs : List Byte} :
    BytesAtPc (v :: vs) s ↔ s.peek s.pc = some v ∧ BytesAtPc vs (s.advance 1) := by
  constructor
  · intro h
    refine ⟨h 0 (Nat.succ_pos _), fun k hk => ?_⟩
    have hk' := h (k + 1) (Nat.succ_lt_succ hk)
    rw [advance_peek, advance_pc, Nat.add_assoc, Nat.add_comm 1 k]
    exact hk'
  · rintro ⟨h0, hvs⟩ (_ | k) hk
    · exact h0
    · have hk' := hvs k (Nat.lt_of_succ_lt_succ hk)
      rw [advance_peek, advance_pc, Nat.add_assoc, Nat.add_comm 1 k] at hk'
      exact hk'

theorem BytesAtPc.of_append {xs ys : List Byte} (h : BytesAtPc (xs ++ ys) s) : BytesAtPc xs s := by
  intro k hk
  have hk' := h k (by rw [List.length_append]; omega)
  rwa [List.getElem_append_left hk] at hk'

/-! ### Fetch and decode of bytes that lie at pc -/

/-- The operand fetch reads the bytes that lie in memory and changes nothing. -/
theorem fetchOperands_of_bytesAtPc {vs : List Byte} {a : Nat} (h : BytesAtPc vs (s.setPc a)) :
    s.fetchOperands vs.length a = (vs, s) := by
  induction vs generalizing a with
  | nil => rfl
  | cons v vs ih =>
    obtain ⟨hv, hvs⟩ := bytesAtPc_cons.mp h
    have hread : s.memRead a = (some v, s) := memRead_of_peek hv
    have hrest : s.fetchOperands vs.length (a + 1) = (vs, s) := ih hvs
    rw [List.length_cons, State.fetchOperands, hread]
    simp only [hrest]

/-- The fetch reads a known opcode and as many operand bytes as its format asks for (R104 of 40_execution_loop.md). -/
theorem fetchBytes_of_bytesAtPc (hl : m.lookup op = some f) (hn : fields.length = f.kinds.length)
    (hb : BytesAtPc (op :: fields) s) : s.fetchBytes m = (op :: fields, s) := by
  obtain ⟨hop, hfields⟩ := bytesAtPc_cons.mp hb
  have hw : m.widthOf op - 1 = fields.length := by simp [OpcodeMap.widthOf, hl, Format.width, hn]
  rw [State.fetchBytes, memRead_of_peek hop]
  simp only [hw, fetchOperands_of_bytesAtPc hfields]

/-- Bytes at pc that decode to an instruction with nothing left over are fetched and decoded to it (R106 of
40_execution_loop.md). -/
theorem fetchDecode_of_decode {bytes : List Byte} {i : Instr} (hb : BytesAtPc bytes s) (hd : m.decode bytes = .ok i []) :
    s.fetchDecode m = .run i s := by
  rcases bytes with _ | ⟨op, fields⟩
  · cases hd
  · rcases hl : m.lookup op with _ | f
    · simp [OpcodeMap.decode, hl] at hd
    · have hf : f.decodeFields fields = .ok i [] := (OpcodeMap.decode_cons_of_lookup hl fields).symm.trans hd
      rw [State.fetchDecode, fetchBytes_of_bytesAtPc hl (Format.length_of_decodeFields hf) hb]
      simp only [hd]

/-- A field of kind R that is 8 or more is what the decoder reports, where every field of kind R before it is below 8 (R105
of 40_execution_loop.md, R245 of 60_exceptions.md). -/
theorem decodeFields_badRegister {k : Nat} (hn : fields.length = f.kinds.length) (hk : f.kinds[k]? = some .R)
    (hv : fields[k]? = some v) (hbad : 8 ≤ v.toNat)
    (hgood : ∀ j w, j < k → f.kinds[j]? = some .R → fields[j]? = some w → w.toNat < 8) :
    f.decodeFields fields = .badRegister v := by
  have hnone : regField v = none := regField_eq_none.mpr hbad
  cases f <;> rcases fields with _ | ⟨a, _ | ⟨b, _ | ⟨c, fields⟩⟩⟩ <;> simp [Format.kinds] at hn <;>
    rcases k with _ | _ | k <;> simp [Format.kinds] at hk hv
  -- The second field of two registers is the only one with a register field before it.
  case f2RR.cons.cons.nil.succ.zero =>
    have ha : a.toNat < 8 := hgood 0 a Nat.one_pos rfl rfl
    obtain ⟨ra, hra⟩ := Option.ne_none_iff_exists'.mp (mt regField_eq_none.mp (Nat.not_le.mpr ha))
    simp [Format.decodeFields, hra, hv, hnone]
  all_goals simp [Format.decodeFields, hv, hnone]

/-- Bytes at pc with a bad register field stop the run (R105 of 40_execution_loop.md). -/
theorem fetchDecode_badRegister (hl : m.lookup op = some f) (hn : fields.length = f.kinds.length)
    (hb : BytesAtPc (op :: fields) s) (hd : f.decodeFields fields = .badRegister v) :
    s.fetchDecode m = .stopped (s.stopWith .badRegister (some v.toNat) .badRegister) := by
  rw [State.fetchDecode, fetchBytes_of_bytesAtPc hl hn hb]
  simp only [OpcodeMap.decode_cons_of_lookup hl, hd]

/-! ### Stops -/

/-- A stop with its one diagnostic. -/
theorem stoppedWith_stopWith (s : State) (code : DiagCode) (info : Option Nat) (cause : HaltCause) :
    StoppedWith [.diag code info] cause s (s.stopWith code info cause) :=
  ⟨rfl, rfl, rfl, fun _ _ => rfl, rfl, rfl, fun _ => rfl, rfl, rfl⟩

/-- A stop after an address out of range has been reported. -/
theorem stoppedWith_addrError_stopWith (s : State) (addr : Nat) (code : DiagCode) (info : Option Nat)
    (cause : HaltCause) : StoppedWith [.diag .addrError (some addr), .diag code info] cause s
      ((s.emitDiag .addrError (some addr)).stopWith code info cause) :=
  ⟨rfl, rfl, List.append_assoc _ _ _, fun _ _ => rfl, rfl, rfl, fun _ => rfl, rfl, rfl⟩

/-- A step of the Running core stops where fetch and decode do. -/
theorem stepWith_stopped (h : s.halted = false) (hf : s.beginStep.fetchDecode m = .stopped t) :
    stepWith m s = .next t :=
  step_of_stopped ((nextAction_running h).trans hf)

/-- A step of the Running core runs the instruction that fetch and decode find. -/
theorem stepWith_run {i : Instr} (h : s.halted = false) (hf : s.beginStep.fetchDecode m = .run i t) :
    stepWith m s = exec i t :=
  step_of_run ((nextAction_running h).trans hf)

end Sys2Proof.Machine
end

section
/-! PROOFS. One step of the execution loop: the instruction it runs (O15), the tick (O16, O17), its four stops before a
handler (O18, O19, O20, O21), an instruction the host has placed (O22). -/

namespace Sys2Proof.Machine

/-! ### The instruction that runs -/

/-- A step of the Running core runs the instruction whose bytes lie at pc; the tick moves neither pc nor memory. -/
theorem stepWith_of_bytesAtPc {m : OpcodeMap} {s : State} {bytes : List Byte} {i : Instr} (h : s.halted = false)
    (hb : BytesAtPc bytes s) (hd : m.decode bytes = .ok i []) : stepWith m s = exec i s.beginStep := by
  have hbegun : BytesAtPc bytes s.beginStep := hb
  exact stepWith_run h (fetchDecode_of_decode hbegun hd)

/-- Settles O15, by `stepWith_of_bytesAtPc`. -/
theorem stepRunsTheDecodedInstruction : Obligations.StepRunsTheDecodedInstruction := by
  unfold Obligations.StepRunsTheDecodedInstruction
  exact ⟨fun m s bytes i => stepWith_of_bytesAtPc, step_eq⟩

/-! ### The tick -/

/-- The draw of the coming step is the first of the draws. -/
theorem drawAt_zero (s : State) : s.drawAt 0 = s.tickDraw := by
  unfold State.drawAt State.tickDraw
  rcases s.ticks with _ | ⟨d, ds⟩ <;> rfl

/-- The start of a step uses up one draw. -/
theorem beginStep_drawAt (s : State) (n : Nat) : s.beginStep.drawAt n = s.drawAt (n + 1) := by
  rw [State.drawAt, State.drawAt, beginStep_ticks, beginStep_tickNo, List.getElem?_tail, Nat.add_assoc, Nat.add_comm 1 n]

/-- Settles O16: `beginStep_x` and `beginStep_trace` for each draw, `beginStep_drawAt` for the draw used up. -/
theorem tickClearsOnlyR6 : Obligations.TickClearsOnlyR6 := by
  unfold Obligations.TickClearsOnlyR6
  intro s
  have hr6 : tickReg = 6 := rfl
  refine ⟨fun hd => ?_, fun hd => ?_, fun r hr => ?_, rfl, rfl, fun _ => rfl, ⟨rfl, rfl⟩, beginStep_drawAt s⟩
  · rw [drawAt_zero] at hd
    simp [hr6, hd]
  · rw [drawAt_zero] at hd
    simp [hd]
  · have hne : tickReg ≠ r := fun h => hr (by simp [← h, hr6])
    simp [hne]

/-- The tick is R6 cleared and the diagnostic reported before a start of the step that draws none. -/
theorem beginStep_true_eq (s : State) (draws : List Bool) : State.beginStep { s with ticks := true :: draws } =
    State.beginStep { (s.setReg 6 0#8).emitDiag .tick (some 0) with ticks := false :: draws } := by
  have htick : State.tickDraw { s with ticks := true :: draws } = true := rfl
  have hnone : State.tickDraw { (s.setReg 6 0#8).emitDiag .tick (some 0) with ticks := false :: draws } = false := rfl
  rw [beginStep_tick _ htick, beginStep_noTick _ hnone]
  rfl

/-- A step of the Running core is a function of the state after its tick. -/
theorem step_congr_beginStep {s t : State} (hs : s.halted = false) (ht : t.halted = false)
    (h : s.beginStep = t.beginStep) : step s = step t := by
  rw [step_eq, step_eq, stepWith, stepWith, nextAction_running hs, nextAction_running ht, h]

/-- Settles O17: the two starts of a step come to the same state (`beginStep_true_eq`), and so do the steps. -/
theorem tickedStepIsAStepFromClearedR6 : Obligations.TickedStepIsAStepFromClearedR6 := by
  unfold Obligations.TickedStepIsAStepFromClearedR6
  exact fun s draws hh => step_congr_beginStep hh hh (beginStep_true_eq s draws)

/-! ### The stops before a handler -/

/-- Settles O18, by `fetchDecode_pastEnd`. -/
theorem fetchPastTheEndStops : Obligations.FetchPastTheEndStops := by
  unfold Obligations.FetchPastTheEndStops
  intro s hh hpc
  exact ⟨_, stepWith_stopped hh (fetchDecode_pastEnd opcodeMap s.beginStep hpc),
    stoppedWith_addrError_stopWith s.beginStep s.pc .unknownOpcode none .unknownOpcode⟩

/-- Settles O19, by `fetchDecode_unknown`. -/
theorem unknownOpcodeStops : Obligations.UnknownOpcodeStops := by
  unfold Obligations.UnknownOpcodeStops
  intro m s op hh hop hl
  obtain ⟨hpc, rfl⟩ := peek_eq_some.mp hop
  exact ⟨_, stepWith_stopped hh (fetchDecode_unknown m s.beginStep hpc hl), stoppedWith_stopWith s.beginStep _ _ _⟩

/-- Settles O20, by `fetchDecode_truncated`: the format of the opcode gives its width. -/
theorem operandPastTheEndStops : Obligations.OperandPastTheEndStops := by
  unfold Obligations.OperandPastTheEndStops
  intro m s op hh hop hknown hw
  obtain ⟨hpc, rfl⟩ := peek_eq_some.mp hop
  obtain ⟨f, hl⟩ := Option.ne_none_iff_exists'.mp hknown
  have hwf : m.widthOf (s.mem.read s.pc) = f.width := by simp [OpcodeMap.widthOf, hl]
  rw [hwf] at hw
  exact ⟨_, stepWith_stopped hh (fetchDecode_truncated m s.beginStep hpc hl hw),
    stoppedWith_addrError_stopWith s.beginStep 256 .operandFault (some s.pc) .operandFault⟩

/-- Settles O21: the decoder reports that field (`decodeFields_badRegister`), and the step stops on it. -/
theorem badRegisterFieldStops : Obligations.BadRegisterFieldStops := by
  unfold Obligations.BadRegisterFieldStops
  intro m s op fields f k v hh hl hn hb hk hv hbad hgood
  have hbegun : BytesAtPc (op :: fields) s.beginStep := hb
  exact ⟨_, stepWith_stopped hh (fetchDecode_badRegister hl hn hbegun (decodeFields_badRegister hn hk hv hbad hgood)),
    stoppedWith_stopWith s.beginStep _ _ _⟩

/-! ### A placed instruction -/

theorem placeBytes_pc (vs : List Byte) (s : State) (a : Nat) : (s.placeBytes a vs).pc = s.pc := by
  induction vs generalizing s a with
  | nil => rfl
  | cons v vs ih =>
    obtain ⟨-, hpc, -⟩ := memWrite_frame s a v
    rw [State.placeBytes, ih, hpc]

theorem placeBytes_halted (vs : List Byte) (s : State) (a : Nat) : (s.placeBytes a vs).halted = s.halted := by
  induction vs generalizing s a with
  | nil => rfl
  | cons v vs ih =>
    obtain ⟨-, -, -, ⟨hhalted, -⟩, -⟩ := memWrite_frame s a v
    rw [State.placeBytes, ih, hhalted]

/-- Bytes are placed from their address on: nothing below it changes. -/
theorem placeBytes_peek_below (vs : List Byte) (s : State) {a b : Nat} (h : b < a) :
    (s.placeBytes a vs).peek b = s.peek b := by
  induction vs generalizing s a with
  | nil => rfl
  | cons v vs ih => rw [State.placeBytes, ih _ (by omega), memWrite_peek_ne s v (by omega)]

/-- Bytes for which there is room lie where they were placed. -/
theorem placeBytes_bytesAtPc (vs : List Byte) (s : State) {a : Nat} (h : a + vs.length ≤ 256) :
    BytesAtPc vs ((s.placeBytes a vs).setPc a) := by
  induction vs generalizing s a with
  | nil => exact fun k hk => absurd hk (Nat.not_lt_zero k)
  | cons v vs ih =>
    rw [List.length_cons] at h
    refine bytesAtPc_cons.mpr ⟨?_, ih (s.memWrite a v) (by omega)⟩
    rw [setPc_peek, setPc_pc, State.placeBytes, placeBytes_peek_below vs _ (Nat.lt_succ_self a),
      memWrite_peek_same s v (by omega)]

theorem readyToFetch_halted (s : State) : s.readyToFetch.halted = false := by
  have h : (if s.halted then s.startRun else s).halted = false := by
    split
    · rfl
    · exact eq_false_of_ne_true ‹_›
  rw [State.readyToFetch]
  generalize (if s.halted then s.startRun else s) = t at h ⊢
  split <;> exact h

/-- There is room for the longest instruction. -/
theorem readyToFetch_pc (s : State) : s.readyToFetch.pc + 3 ≤ 256 := by
  rw [State.readyToFetch]
  generalize (if s.halted then s.startRun else s) = t
  split
  · assumption
  · exact (by decide : 0 + 3 ≤ 256)

theorem withFetchWord_halted (s : State) (nbits w : Nat) : (s.withFetchWord nbits w).halted = false := by
  rw [State.withFetchWord, placeBytes_halted, readyToFetch_halted]

/-- The bytes of a placed table word lie at pc. -/
theorem withFetchWord_bytesAtPc (s : State) (nbits w : Nat) :
    BytesAtPc (tableBytes nbits w) (s.withFetchWord nbits w) := by
  have h := placeBytes_bytesAtPc (tableBytes nbits w) s.readyToFetch (readyToFetch_pc s)
  have hpc := placeBytes_pc (tableBytes nbits w) s.readyToFetch s.readyToFetch.pc
  intro k hk
  rw [State.withFetchWord, hpc]
  exact h k hk

/-- What a table word decodes to is what its bytes begin with. -/
theorem tableBytes_of_decodeTableWord {nbits w : Nat} {i : Instr} (h : decodeTableWord nbits w = some i) :
    ∃ rest, tableBytes nbits w = opcodeMap.encode i ++ rest := by
  unfold decodeTableWord at h
  split at h <;> cases h
  exact ⟨_, OpcodeMap.eq_encode_of_decode ‹_›⟩

/-- Settles O22: the encoding of `i` lies at pc of the Running core, so the next step runs `i`
(`stepWith_of_bytesAtPc`). -/
theorem placedWordIsTheNextInstruction : Obligations.PlacedWordIsTheNextInstruction := by
  unfold Obligations.PlacedWordIsTheNextInstruction
  intro s nbits w i h
  obtain ⟨rest, hbytes⟩ := tableBytes_of_decodeTableWord h
  have hb := withFetchWord_bytesAtPc s nbits w
  rw [hbytes] at hb
  have hd := OpcodeMap.decode_encode opcodeMap_distinct i []
  rw [List.append_nil] at hd
  exact stepWith_of_bytesAtPc (withFetchWord_halted s nbits w) hb.of_append hd

end Sys2Proof.Machine
end

section
/-! PROOFS. The run as a whole: when the host may act (O3), when there is a step (O46), pc after each handler (O48), the
INTERNAL stop (O51), the output (O54). -/

namespace Sys2Proof.Machine

variable {s t : State} {i : Instr}

/-! ### The phases of a run -/

/-- A loader's writes before the run are all taken (R274 of 70_reset_and_hazards.md): none of them moves the core to another
phase. -/
theorem hostLoadFrom_constructed (image : List Byte) {s : State} (h : s.phase = .constructed) (addr : Nat) :
    hostLoadFrom s addr image = .next (s.loadFrom addr image) := by
  induction image generalizing s addr with
  | nil => rfl
  | cons v vs ih =>
    have hw : hostLoadWrite addr v s = .next (s.loadWrite addr v) := by simp only [hostLoadWrite, h]
    rw [hostLoadFrom, hw]
    exact ih ((loadWrite_phase addr v).trans h) (addr + 1)

/-- Settles O3: the host's operations are decided by the phase, and the phases by `halted` and `halt_cause`. -/
theorem noStepAndNoSecondRunAfterARun : Obligations.NoStepAndNoSecondRunAfterARun := by
  unfold Obligations.NoStepAndNoSecondRunAfterARun
  refine ⟨fun s hh hc => ?_, fun s hh hc => ?_, fun s hh => ?_, fun s => rfl⟩
  · have hp := phase_constructed hh hc
    exact ⟨fun addr v => by simp only [hostLoadWrite, hp], fun image => hostLoadFrom_constructed image hp 0,
      by simp only [hostReadState, hp]⟩
  · have hp := phase_ended hh hc
    exact ⟨step_ended hh hc, by simp only [hostRun, hp], fun addr v => by simp only [hostLoadWrite, hp],
      by simp only [hostReadState, hp]⟩
  · have hp := phase_running hh
    exact ⟨by simp only [hostRun, hp], fun addr v => by simp only [hostLoadWrite, hp],
      by simp only [hostReadState, hp]⟩

/-- Settles O46: of the four things a step can be (`step_cases`) only the one after the run has no next state; an
instruction always has one (`exec_effect`). -/
theorem onlyAnEndedRunHasNoStep : Obligations.OnlyAnEndedRunHasNoStep := by
  unfold Obligations.OnlyAnEndedRunHasNoStep
  intro s
  rcases step_cases opcodeMap s with ⟨-, -, hs⟩ | ⟨hh, hc, hs⟩ | ⟨-, i, -, -, hs⟩ | ⟨-, events, cause, -, -, hs⟩
  · exact .inl ⟨_, hs⟩
  · exact .inr ⟨hh, hc, hs⟩
  · obtain ⟨t, ht, -⟩ := exec_effect i s.beginStep
    exact .inl ⟨t, hs.trans ht⟩
  · exact .inl ⟨_, hs⟩

/-! ### The program counter -/

/-- An outcome has at most one next state. -/
theorem next_unique {o : Host.Outcome State Fault Refusal} {u : State} (hu : o = .next u) (h : o = .next t) : u = t :=
  Host.Outcome.next.inj (hu.symm.trans h)

/-- The ALU's two-register handler advances by 3, unless it divides (R152 of 42_alu.md). -/
theorem aluRR_pc {op : AluOp} (hop : ¬(op = .div ∨ op = .mod)) (s : State) (a b : Reg) (opcode : Byte) :
    (s.aluRR op a b opcode).pc = s.pc + 3 := by
  rcases aluRR_cases s op a b opcode with ⟨r, -, hr⟩ | ⟨hdiv, -, -⟩
  · rw [hr]
    rfl
  · exact absurd hdiv hop

/-- The division handlers advance by 3 or stop where they are (R156, R157 of 42_alu.md). -/
theorem divide_pc (s : State) (c : Prop) [Decidable c] (a : Reg) (v : Byte) :
    (if c then s.stopWith .divByZero (some s.pc) .divByZero else (s.setReg a v).advance 3).pc =
      if c then s.pc else s.pc + 3 := by
  split <;> rfl

/-- Settles O48, handler by handler. -/
theorem programCounterFollowsTheTable : Obligations.ProgramCounterFollowsTheTable := by
  unfold Obligations.ProgramCounterFollowsTheTable
  intro i s t h
  cases i with
  | add | sub | mul | and | or | xor | shl | shr =>
    cases h
    exact aluRR_pc (by decide) s _ _ _
  | div a b =>
    cases next_unique (execDiv_eq s a b) h
    exact divide_pc s _ a _
  | mod a b =>
    cases next_unique (execMod_eq s a b) h
    exact divide_pc s _ a _
  | not a => cases next_unique (execNot_eq s a) h; rfl
  | st a b => cases h; exact congrArg (· + 3) (storeByte_pc s _ _)
  | push a => cases next_unique (execPush_eq s a) h; exact congrArg (· + 2) (storeByte_pc _ _ _)
  | pop a =>
    rcases Nat.lt_or_ge (s.x spReg).toNat 244 with hsp | hsp
    · cases next_unique (execPop_eq s a hsp) h
      exact (if_neg (Nat.not_le.mpr hsp)).symm
    · cases next_unique (execPop_empty s a hsp) h
      exact (if_pos hsp).symm
  | call a =>
    cases next_unique (execCall_eq s a) h
    have hsp : spReg = a ↔ a = 7 := eq_comm
    simp only [setPc_pc, sp_eq, hsp]
  | jeq a => cases next_unique (execJeq_eq s a) h; rfl
  | jne a => cases next_unique (execJne_eq s a) h; rfl
  | hlt | ldi | ld | prn | pra | addi | inc | dec | ret | cmp | jmp | jgt | jge | jle | int | iret | nop =>
    cases h
    rfl

/-! ### The INTERNAL stop -/

/-- A diagnostic that is not among the events appended is counted as before. -/
theorem diagCount_append_of_forall_ne {code : DiagCode} {trace events : List Event}
    (h : ∀ e ∈ events, ∀ n, e ≠ .diag code n) : diagCount code (trace ++ events) = diagCount code trace := by
  rw [diagCount, List.countP_append, ← diagCount, Nat.add_eq_left, List.countP_eq_zero]
  rintro (_ | ⟨c, n⟩) he
  · simp
  · simp only [beq_iff_eq]
    rintro rfl
    exact h _ he n rfl

/-- What leads from `s` to `t` neither makes an INTERNAL stop nor reports one. -/
def NoInternal (s t : State) : Prop :=
  (s.haltCause ≠ .internal → t.haltCause ≠ .internal) ∧ diagCount .internal t.trace = diagCount .internal s.trace

theorem Effect.not_internal (he : Effect s i t) : NoInternal s t := by
  cases he with
  | moves | stores | compares => exact ⟨id, rfl⟩
  | prints => exact ⟨id, diagCount_append_of_forall_ne (by simp)⟩
  | halts => exact ⟨fun _ => nofun, rfl⟩
  | divides | underflows => exact ⟨fun _ => nofun, diagCount_append_of_forall_ne (by simp)⟩

theorem beginStep_not_internal (s : State) : NoInternal s s.beginStep := by
  refine ⟨id, ?_⟩
  rw [beginStep_trace]
  split
  · exact diagCount_append_of_forall_ne (by simp)
  · rfl

theorem StopsBefore.not_internal {m : OpcodeMap} {events : List Event} {cause : HaltCause}
    (h : StopsBefore m s events cause) :
    NoInternal s ({ s with trace := s.trace ++ events }.raiseStop cause) := by
  refine ⟨fun _ => ?_, diagCount_append_of_forall_ne fun e he n hn => ?_⟩
  · rcases h.cause with rfl | rfl | rfl <;> nofun
  · obtain ⟨d, n', rfl, hd⟩ := h.events_diag e he
    cases hn
    exact hd rfl

theorem NoInternal.trans {u : State} (h : NoInternal s t) (h' : NoInternal t u) : NoInternal s u := by
  obtain ⟨hcause, hcount⟩ := h
  obtain ⟨hcause', hcount'⟩ := h'
  exact ⟨hcause' ∘ hcause, hcount'.trans hcount⟩

/-- Settles O51: the ALU has every operation (`aluTable_complete`), so none of the effects of an instruction is the INTERNAL
stop, and neither is a stop before a handler. -/
theorem internalStopIsUnreachable : Obligations.InternalStopIsUnreachable := by
  unfold Obligations.InternalStopIsUnreachable
  refine ⟨fun op va vb => ?_, fun s a width op => stoppedWith_stopWith s _ _ _, fun s t h => ?_⟩
  · rcases aluCompute_cases op va vb with ⟨r, hr⟩ | ⟨-, -, hr⟩ <;> rw [alu_eq, hr] <;> nofun
  · rcases next_step_cases h with ⟨-, rfl⟩ | ⟨-, -, i, -, he⟩ | ⟨-, events, cause, hstop, rfl⟩
    · exact ⟨fun _ => nofun, rfl⟩
    · exact (beginStep_not_internal s).trans he.not_internal
    · exact (beginStep_not_internal s).trans hstop.not_internal

/-! ### The output -/

theorem outputs_append (trace events : List Event) : outputs (trace ++ events) = outputs trace ++ outputs events :=
  List.filterMap_append

/-- Diagnostics are no output. -/
theorem outputs_append_of_diags {trace events : List Event} (h : ∀ e ∈ events, ∃ d n, e = .diag d n) :
    outputs (trace ++ events) = outputs trace := by
  have hnone : outputs events = [] := by
    refine List.filterMap_eq_nil_iff.mpr fun e he => ?_
    obtain ⟨d, n, rfl⟩ := h e he
    rfl
  rw [outputs_append, hnone, List.append_nil]

theorem outputs_append_diag (trace : List Event) (d : DiagCode) (n : Option Nat) :
    outputs (trace ++ [.diag d n]) = outputs trace :=
  outputs_append_of_diags fun _ he => ⟨d, n, List.mem_singleton.mp he⟩

/-- Whatever the ALU answers, its handlers put nothing out. -/
theorem aluFinish_outputs (s : State) (a : Reg) (w : Nat) (op : Byte) (r : AluResult) :
    outputs (s.aluFinish a w op r).trace = outputs s.trace := by
  cases r with
  | value => rfl
  | divZero | unsupported => exact outputs_append_diag _ _ _

/-- An instruction other than PRN and PRA puts nothing out. -/
theorem exec_outputs (i : Instr) (s : State) (hn : ∀ a, i ≠ .prn a) (ha : ∀ a, i ≠ .pra a) :
    ∃ t, exec i s = .next t ∧ outputs t.trace = outputs s.trace := by
  cases i with
  | prn a => exact absurd rfl (hn a)
  | pra a => exact absurd rfl (ha a)
  | add | sub | mul | div | mod | and | or | xor | shl | shr | not => exact ⟨_, rfl, aluFinish_outputs s _ _ _ _⟩
  | st | push | call => exact ⟨_, rfl, congrArg outputs (storeByte_trace _ _ _)⟩
  | pop a =>
    rcases Nat.lt_or_ge (s.x spReg).toNat 244 with h | h
    · exact ⟨_, execPop_eq s a h, rfl⟩
    · exact ⟨_, execPop_empty s a h, outputs_append_diag _ _ _⟩
  | jeq a => exact ⟨_, execJeq_eq s a, rfl⟩
  | jne a => exact ⟨_, execJne_eq s a, rfl⟩
  | hlt | ldi | ld | addi | inc | dec | ret | cmp | jmp | jgt | jge | jle | int | iret | nop => exact ⟨_, rfl, rfl⟩

theorem outputs_of_exec (h : exec i s = .next t) (hn : ∀ a, i ≠ .prn a) (ha : ∀ a, i ≠ .pra a) :
    outputs t.trace = outputs s.trace := by
  obtain ⟨u, hu, ho⟩ := exec_outputs i s hn ha
  exact next_unique hu h ▸ ho

theorem beginStep_outputs (s : State) : outputs s.beginStep.trace = outputs s.trace := by
  rw [beginStep_trace]
  split
  · exact outputs_append_diag _ _ _
  · rfl

theorem StopsBefore.outputs_eq {m : OpcodeMap} {events : List Event} {cause : HaltCause}
    (h : StopsBefore m s events cause) : outputs (s.trace ++ events) = outputs s.trace := by
  refine outputs_append_of_diags fun e he => ?_
  obtain ⟨d, n, hd, -⟩ := h.events_diag e he
  exact ⟨d, n, hd⟩

/-- Settles O54: PRN and PRA append their event, every other instruction puts nothing out (`exec_outputs`), and neither do
the tick, the launch and the stops before a handler. -/
theorem outputIsExactlyPrnAndPra : Obligations.OutputIsExactlyPrnAndPra := by
  unfold Obligations.OutputIsExactlyPrnAndPra
  refine ⟨fun i s t h => ?_, beginStep_outputs, fun s t h hno => ?_⟩
  · cases i with
    | prn a | pra a =>
      cases h
      exact outputs_append _ _
    | _ => exact (outputs_of_exec h nofun nofun).trans (List.append_nil _).symm
  · rcases next_step_cases h with ⟨-, rfl⟩ | ⟨-, -, i, hn, -⟩ | ⟨-, events, cause, hstop, rfl⟩
    · rfl
    · exact absurd hn (hno i _)
    · exact hstop.outputs_eq.trans (beginStep_outputs s)

end Sys2Proof.Machine
end

section
/-! SUPPORT. The frames of the usual ways an instruction ends: a register write, a store or an event, then the advance of
pc. -/

namespace Sys2Proof.Machine

variable {s : State} {i : Instr} {w : Nat}

/-- A register write and the advance of pc are all that `WritesRegister` asks for. -/
theorem writesRegister_of_exec_eq {a : Reg} {v : Byte} (h : exec i s = .next ((s.setReg a v).advance w)) :
    WritesRegister i a v.toNat w s := by
  have hregs : SameRegsBut [a] s ((s.setReg a v).advance w) := fun r hr => by
    rw [advance_x, setReg_x, if_neg fun har => hr (List.mem_singleton.mpr har.symm)]
  exact ⟨_, h, congrArg BitVec.toNat (setReg_x_same s a v), rfl, hregs, fun _ => rfl, rfl, rfl, ⟨rfl, rfl⟩, rfl, rfl⟩

/-- A store is seen at its own address and at no other. -/
theorem storeByte_sameMemoryBut (s : State) (a v : Byte) :
    (s.storeByte a v).peek a.toNat = some v ∧ SameMemoryBut a.toNat s (s.storeByte a v) :=
  ⟨memWrite_peek_same s v a.isLt, fun _ hb => memWrite_peek_ne s v hb⟩

/-- A store reports nothing and leaves FL, the run state and the draws alone (R54 of 20_memory.md). -/
theorem storeByte_sameRest (s : State) (a v : Byte) : SameRest s (s.storeByte a v) := by
  obtain ⟨-, -, hfl, hrun, hdraws⟩ := memWrite_frame s a.toNat v
  exact ⟨hfl, storeByte_trace s a v, hrun, hdraws⟩

/-- An event and the advance of pc change the trace and pc alone. -/
theorem emits_of_exec_eq {e : Event} (h : exec i s = .next ((s.emit e).advance w)) :
    ∃ t, exec i s = .next t ∧ t.trace = s.trace ++ [e] ∧ t.pc = s.pc + w ∧
      SameRegsBut [] s t ∧ t.fl = s.fl ∧ SameMemory s t ∧ SameRunState s t ∧ SameDraws s t :=
  ⟨_, h, rfl, rfl, fun _ _ => rfl, rfl, fun _ => rfl, ⟨rfl, rfl⟩, rfl, rfl⟩

end Sys2Proof.Machine
end

section
/-! PROOFS. Data movement and output of 41_data_movement.md: LDI (O23), LD (O24), ST (O25), PRN and PRA (O26). -/

namespace Sys2Proof.Machine

/-- Settles O23: LDI is a register write of the immediate. -/
theorem ldiLoadsTheImmediate : Obligations.LdiLoadsTheImmediate := by
  unfold Obligations.LdiLoadsTheImmediate
  exact fun s a b => writesRegister_of_exec_eq rfl

/-- Settles O24: LD is a register write of the byte an observer sees at `x[b]` (`execLd_eq`, `peek_byte`). -/
theorem ldLoadsFromTheRegisterAddress : Obligations.LdLoadsFromTheRegisterAddress := by
  unfold Obligations.LdLoadsFromTheRegisterAddress
  intro s a b v hv
  obtain rfl : s.loadByte (s.x b) = v := Option.some.inj ((peek_byte s (s.x b)).symm.trans hv)
  exact writesRegister_of_exec_eq (execLd_eq s a b)

/-- Settles O25: the operand names the byte that holds the store address (`peek_byte`), and ST is one store there
(`execSt_eq`). -/
theorem stStoresThroughTheMemoryByte : Obligations.StStoresThroughTheMemoryByte := by
  unfold Obligations.StStoresThroughTheMemoryByte
  intro s a b
  obtain ⟨hsame, hother⟩ := storeByte_sameMemoryBut s (s.indirectAddress a) (s.x b)
  have hpc : (s.storeByte (s.indirectAddress a) (s.x b)).pc = s.pc := storeByte_pc s _ _
  exact ⟨peek_byte s a, _, execSt_eq s a b, hsame, hother, congrArg (· + 3) hpc, fun r _ => storeByte_x s _ _ r,
    storeByte_sameRest s _ _⟩

/-- Settles O26: PRN and PRA each emit their one event (`emits_of_exec_eq`). -/
theorem prnAndPraEmitTheRegister : Obligations.PrnAndPraEmitTheRegister := by
  unfold Obligations.PrnAndPraEmitTheRegister
  exact fun s a => ⟨emits_of_exec_eq rfl, emits_of_exec_eq rfl⟩

end Sys2Proof.Machine
end

section
/-! SUPPORT. The ten instructions of the shared ALU handler, and what an instruction of 42_alu.md can do. -/

namespace Sys2Proof.Machine

variable {s t : State} {i : Instr} {a b : Reg} {op : AluOp}

/-- A register write whose value is known as a number. -/
theorem writesRegister_of_toNat_eq {v : Byte} {n w : Nat} (h : exec i s = .next ((s.setReg a v).advance w))
    (hv : v.toNat = n) : WritesRegister i a n w s :=
  hv ▸ writesRegister_of_exec_eq h

/-! ### The shared handler -/

/-- The instructions of the shared handler with their operations (R152 of 42_alu.md). -/
def aluPairs (a b : Reg) : List (Instr × AluOp) :=
  [(.add a b, .add), (.sub a b, .sub), (.mul a b, .mul), (.div a b, .div), (.mod a b, .mod), (.and a b, .and),
    (.or a b, .or), (.xor a b, .xor), (.shl a b, .shl), (.shr a b, .shr)]

/-- Each of the ten instructions is the handler run on its operation. -/
theorem exec_of_mem_aluPairs {p : Instr × AluOp} (h : p ∈ aluPairs a b) (s : State) :
    exec p.1 s = .next (s.aluRR p.2 a b (opcodeMap.opcodeOf p.1)) := by
  fin_cases h <;> rfl

theorem encode_length_of_mem_aluPairs {p : Instr × AluOp} (h : p ∈ aluPairs a b) :
    (opcodeMap.encode p.1).length = 3 := by
  fin_cases h <;> rfl

theorem isCmp_of_mem_aluPairs {p : Instr × AluOp} (h : p ∈ aluPairs a b) : isCmp p.1 = false := by
  fin_cases h <;> rfl

/-- DIV and MOD are the two that divide. -/
theorem divides_of_mem_aluPairs {p : Instr × AluOp} (h : p ∈ aluPairs a b) (hop : p.2 = .div ∨ p.2 = .mod) :
    p.1 = .div a b ∨ p.1 = .mod a b := by
  revert hop
  fin_cases h <;> simp

/-- The instruction runs to the division by zero stop of R152 of 42_alu.md. -/
def StopsDivByZero (i : Instr) (s : State) : Prop :=
  ∃ t, exec i s = .next t ∧ StoppedWith [.diag .divByZero (some s.pc)] .divByZero s t

theorem stopsDivByZero_of_exec_eq (h : exec i s = .next (s.stopWith .divByZero (some s.pc) .divByZero)) :
    StopsDivByZero i s :=
  ⟨_, h, stoppedWith_stopWith s _ _ _⟩

/-- The shared handler writes the result of the ALU, or divides by zero and stops (R152 of 42_alu.md). -/
theorem aluHandler_cases {opcode : Byte} (h : exec i s = .next (s.aluRR op a b opcode)) :
    (∃ r, alu op (s.x a) (s.x b) = .value r ∧ WritesRegister i a r.toNat 3 s) ∨
      ((op = .div ∨ op = .mod) ∧ s.x b = 0#8 ∧ StopsDivByZero i s) := by
  rcases aluRR_cases s op a b opcode with ⟨r, hr, hs⟩ | ⟨hop, hb, hs⟩ <;> rw [hs] at h
  · exact .inl ⟨r, (alu_eq op _ _).trans hr, writesRegister_of_exec_eq h⟩
  · exact .inr ⟨hop, hb, stopsDivByZero_of_exec_eq h⟩

theorem alu_zero_of_divides (hop : op = .div ∨ op = .mod) (va : Byte) : alu op va 0#8 = .divZero := by
  rcases hop with rfl | rfl
  · exact alu_div_zero va
  · exact alu_mod_zero va

/-! ### The whole family -/

/-- The fifteen instructions of 42_alu.md; `v` is the immediate of ADDI. -/
def aluFamily (a b : Reg) (v : Byte) : List Instr :=
  (aluPairs a b).map Prod.fst ++ [.not a, .addi a v, .inc a, .dec a] ++ [.cmp a b]

/-- An instruction of the family other than CMP writes `x[a]`, or is DIV or MOD and stops at a zero divisor. -/
theorem aluFamily_cases {v : Byte} (h : i ∈ aluFamily a b v) (s : State) :
    (isCmp i = false ∧ ∃ n, WritesRegister i a n (opcodeMap.encode i).length s) ∨
      ((i = .div a b ∨ i = .mod a b) ∧ s.x b = 0#8 ∧ StopsDivByZero i s) ∨ i = .cmp a b := by
  rw [aluFamily, List.mem_append, List.mem_append, List.mem_map] at h
  rcases h with (⟨p, hp, rfl⟩ | h) | h
  · rcases aluHandler_cases (exec_of_mem_aluPairs hp s) with ⟨r, -, hw⟩ | ⟨hop, hb, hs⟩
    · rw [encode_length_of_mem_aluPairs hp]
      exact .inl ⟨isCmp_of_mem_aluPairs hp, r.toNat, hw⟩
    · exact .inr (.inl ⟨divides_of_mem_aluPairs hp hop, hb, hs⟩)
  · left
    fin_cases h
    · exact ⟨rfl, _, writesRegister_of_exec_eq (execNot_eq s a)⟩
    · exact ⟨rfl, _, writesRegister_of_exec_eq (execAddi_eq s a v)⟩
    · exact ⟨rfl, _, writesRegister_of_exec_eq (execInc_eq s a)⟩
    · exact ⟨rfl, _, writesRegister_of_exec_eq (execDec_eq s a)⟩
  · exact .inr (.inr (List.mem_singleton.mp h))

/-! ### Comparison -/

/-- The flag of a comparison, by the unsigned order of the two values (R167 of 42_alu.md). -/
theorem compareFlags_spec (va vb : Byte) :
    (va.toNat = vb.toNat → compareFlags va vb = 1#8) ∧ (va.toNat > vb.toNat → compareFlags va vb = 2#8) ∧
      (va.toNat < vb.toNat → compareFlags va vb = 4#8) := by
  rcases compareFlags_cases va vb with ⟨rfl, hf⟩ | ⟨hgt, hf⟩ | ⟨hlt, hf⟩
  · exact ⟨fun _ => hf, fun h => absurd h (Nat.lt_irrefl _), fun h => absurd h (Nat.lt_irrefl _)⟩
  · exact ⟨fun h => absurd h (Nat.ne_of_gt hgt), fun _ => hf, fun h => absurd h (Nat.lt_asymm hgt)⟩
  · exact ⟨fun h => absurd h (Nat.ne_of_lt hlt), fun h => absurd h (Nat.lt_asymm hlt), fun _ => hf⟩

end Sys2Proof.Machine
end

section
/-! PROOFS. The ALU, register arithmetic and compare of 42_alu.md: the family as a whole (O49), the shared handler (O27),
its operations (O28 to O32), arithmetic outside the ALU (O33), CMP (O34). -/

namespace Sys2Proof.Machine

/-- Settles O49: CMP writes FL, every other instruction of the family is a register write or a division by zero
(`aluFamily_cases`). -/
theorem aluFamilyTouchesOneRegisterAndNoMemory : Obligations.AluFamilyTouchesOneRegisterAndNoMemory := by
  unfold Obligations.AluFamilyTouchesOneRegisterAndNoMemory
  intro i a b v s t hi h
  rcases aluFamily_cases (v := v) hi s with ⟨hc, n, u, hu, -, hpc, hregs, hmem, hfl, htrace, hrun, hdraws⟩ |
    ⟨hdiv, hb, u, hu, hstop⟩ | rfl
  · obtain rfl := next_unique hu h
    rw [if_neg (isCmp_eq_false.mp hc a b)]
    exact ⟨hregs, .inr hfl, hmem, hdraws, .inl ⟨hpc, hrun, htrace⟩⟩
  · obtain rfl := next_unique hu h
    have ⟨_, _, _, hregs, _, hfl, hmem, hdraws⟩ := hstop
    exact ⟨fun r _ => hregs r List.not_mem_nil, .inr hfl, hmem, hdraws, .inr ⟨hdiv, hb, hstop⟩⟩
  · obtain rfl := next_unique (execCmp_eq s a b) h
    exact ⟨fun _ _ => rfl, .inl rfl, fun _ => rfl, ⟨rfl, rfl⟩, .inl ⟨rfl, ⟨rfl, rfl⟩, rfl⟩⟩

/-- Settles O27, by `aluHandler_cases`. -/
theorem aluHandlerWritesTheResultOrStops : Obligations.AluHandlerWritesTheResultOrStops := by
  unfold Obligations.AluHandlerWritesTheResultOrStops
  intro s a b op i hi
  have he : exec i s = .next (s.aluRR op a b (opcodeMap.opcodeOf i)) := exec_of_mem_aluPairs hi s
  rcases aluHandler_cases he with hw | ⟨hop, hb, hs⟩
  · exact .inl hw
  · exact .inr ⟨hb ▸ alu_zero_of_divides hop (s.x a), hop, hs⟩

/-- Settles O28: the operations on bytes are those on numbers modulo 256. -/
theorem addSubMulKeepTheLowByte : Obligations.AddSubMulKeepTheLowByte := by
  unfold Obligations.AddSubMulKeepTheLowByte
  intro s a b
  refine ⟨writesRegister_of_toNat_eq (execAdd_eq s a b) (BitVec.toNat_add _ _),
    writesRegister_of_toNat_eq (execSub_eq s a b) ?_,
    writesRegister_of_toNat_eq (execMul_eq s a b) (BitVec.toNat_mul _ _)⟩
  bv_omega

/-- Settles O29: each written byte is the bitwise operation on bytes; the complement of a byte is `255 - v`. -/
theorem bitwiseOperationsActBitByBit : Obligations.BitwiseOperationsActBitByBit := by
  unfold Obligations.BitwiseOperationsActBitByBit
  intro s a b
  exact ⟨⟨_, writesRegister_of_exec_eq (execAnd_eq s a b), fun _ _ => BitVec.getLsbD_and⟩,
    ⟨_, writesRegister_of_exec_eq (execOr_eq s a b), fun _ _ => BitVec.getLsbD_or⟩,
    ⟨_, writesRegister_of_exec_eq (execXor_eq s a b), fun _ _ => BitVec.getLsbD_xor⟩,
    writesRegister_of_toNat_eq (execNot_eq s a) BitVec.toNat_not⟩

/-- Settles O30: a shift is a product or a quotient by a power of two, and shifts every bit out from 8 on. -/
theorem shiftsUseTheWholeCount : Obligations.ShiftsUseTheWholeCount := by
  unfold Obligations.ShiftsUseTheWholeCount
  intro s a b
  have hshl := execShl_eq s a b
  have hshr := execShr_eq s a b
  refine ⟨writesRegister_of_toNat_eq hshl ?_, writesRegister_of_toNat_eq hshr ?_, fun h =>
    ⟨writesRegister_of_toNat_eq hshl ?_, writesRegister_of_toNat_eq hshr ?_⟩⟩
  · rw [BitVec.toNat_shiftLeft, Nat.shiftLeft_eq]
  · rw [BitVec.toNat_ushiftRight, Nat.shiftRight_eq_div_pow]
  · rw [BitVec.shiftLeft_eq_zero h]; rfl
  · rw [BitVec.ushiftRight_eq_zero h]; rfl

/-- Settles O31: for a divisor other than 0 both handlers are register writes (`execDiv_eq`, `execMod_eq`). -/
theorem divAndModGiveQuotientAndRemainder : Obligations.DivAndModGiveQuotientAndRemainder := by
  unfold Obligations.DivAndModGiveQuotientAndRemainder
  intro s a b hb
  have hdiv := execDiv_eq s a b
  have hmod := execMod_eq s a b
  rw [if_neg hb] at hdiv hmod
  exact ⟨writesRegister_of_toNat_eq hdiv BitVec.toNat_udiv, writesRegister_of_toNat_eq hmod BitVec.toNat_umod⟩

/-- Settles O32: for the divisor 0 both handlers are the stop (`execDiv_eq`, `execMod_eq`). -/
theorem divAndModByZeroStop : Obligations.DivAndModByZeroStop := by
  unfold Obligations.DivAndModByZeroStop
  intro s a b hb
  have hdiv := execDiv_eq s a b
  have hmod := execMod_eq s a b
  rw [if_pos hb] at hdiv hmod
  exact ⟨stopsDivByZero_of_exec_eq hdiv, stopsDivByZero_of_exec_eq hmod⟩

/-- Settles O33: all three are additions on bytes, DEC that of 255. -/
theorem addiIncDecWrapModulo256 : Obligations.AddiIncDecWrapModulo256 := by
  unfold Obligations.AddiIncDecWrapModulo256
  intro s a b
  refine ⟨writesRegister_of_toNat_eq (execAddi_eq s a b) (BitVec.toNat_add _ _),
    writesRegister_of_toNat_eq (execInc_eq s a) (BitVec.toNat_add _ _),
    writesRegister_of_toNat_eq (execDec_eq s a) ?_⟩
  bv_omega

/-- Settles O34, by `compareFlags_spec`. -/
theorem cmpWritesExactlyOneFlag : Obligations.CmpWritesExactlyOneFlag := by
  unfold Obligations.CmpWritesExactlyOneFlag
  intro s a b
  obtain ⟨heq, hgt, hlt⟩ := compareFlags_spec (s.x a) (s.x b)
  exact ⟨_, execCmp_eq s a b, heq, hgt, hlt, rfl, fun _ _ => rfl, fun _ => rfl, rfl, ⟨rfl, rfl⟩, rfl, rfl⟩

end Sys2Proof.Machine
end

section
/-! SUPPORT. Frames in sequence, and what a push leaves behind. -/

namespace Sys2Proof.Machine

variable {s t : State} {changed : List Reg}

/-! ### Frames in sequence -/

/-- A write to a register that may change keeps the others. -/
theorem SameRegsBut.setReg {r : Reg} (h : SameRegsBut changed s t) (hr : r ∈ changed) (v : Byte) :
    SameRegsBut changed s (t.setReg r v) := fun q hq => by
  rw [setReg_x, if_neg (ne_of_mem_of_not_mem hr hq), h q hq]

theorem SameRest.trans {u : State} (h : SameRest s t) (h' : SameRest t u) : SameRest s u := by
  obtain ⟨hfl, htrace, ⟨hhalted, hcause⟩, hticks, htickNo⟩ := h
  obtain ⟨hfl', htrace', ⟨hhalted', hcause'⟩, hticks', htickNo'⟩ := h'
  exact ⟨hfl'.trans hfl, htrace'.trans htrace, ⟨hhalted'.trans hhalted, hcause'.trans hcause⟩,
    hticks'.trans hticks, htickNo'.trans htickNo⟩

/-! ### Lowering SP -/

/-- After SP has moved, R7 reads as the moved SP (D13). -/
theorem decSp_x (s : State) (r : Reg) : s.decSp.x r = if r = 7 then s.decSp.sp else s.x r := by
  by_cases hr : r = 7
  · rw [if_pos hr, hr]
    rfl
  · rw [if_neg hr, decSp_eq, setReg_x, if_neg fun h => hr h.symm]

/-- SP goes down by one modulo 256 (D3). -/
theorem decSp_sp_toNat (s : State) : s.decSp.sp.toNat = (s.sp.toNat + 255) % 256 := by
  rw [decSp_eq, sp_eq, sp_eq, setReg_x_same]
  bv_omega

/-- A push: the byte below SP is written, SP points to it, and nothing else changes (R190, R192 of
43_stack_and_subroutine.md). -/
theorem storeAtSp_decSp (s : State) (v : Byte) :
    (s.decSp.storeAtSp v).sp = s.decSp.sp ∧ (s.decSp.storeAtSp v).peek s.decSp.sp.toNat = some v ∧
      SameMemoryBut s.decSp.sp.toNat s (s.decSp.storeAtSp v) ∧ SameRegsBut [7] s (s.decSp.storeAtSp v) ∧
      (s.decSp.storeAtSp v).pc = s.pc ∧ SameRest s (s.decSp.storeAtSp v) := by
  obtain ⟨hsame, hother⟩ := storeByte_sameMemoryBut s.decSp s.decSp.sp v
  have hx : ∀ r, (s.decSp.storeAtSp v).x r = s.decSp.x r := storeByte_x s.decSp s.decSp.sp v
  have hregs : SameRegsBut [7] s s.decSp := SameRegsBut.setReg (fun _ _ => rfl) List.mem_cons_self _
  exact ⟨hx 7, hsame, hother, fun r hr => (hx r).trans (hregs r hr), storeByte_pc s.decSp _ v,
    storeByte_sameRest s.decSp _ v⟩

end Sys2Proof.Machine
end

section
/-! PROOFS. The stack and subroutines of 43_stack_and_subroutine.md: PUSH (O35), POP (O36, O37), CALL (O38), RET (O39),
and the two laws of R194 (O40, O41). -/

namespace Sys2Proof.Machine

/-- Settles O35: PUSH is a push (`storeAtSp_decSp`) of the register read after SP has moved (`decSp_x`). -/
theorem pushStoresBelowTheStackPointer : Obligations.PushStoresBelowTheStackPointer := by
  unfold Obligations.PushStoresBelowTheStackPointer
  intro s a
  obtain ⟨hsp, hbyte, hmem, hregs, hpc, hrest⟩ := storeAtSp_decSp s (s.decSp.x a)
  exact ⟨decSp_sp_toNat s, _, rfl, hsp, hbyte.trans (congrArg some (decSp_x s a)), hmem, hregs,
    congrArg (· + 2) hpc, hrest⟩

/-- Settles O36: POP below 244 is two register writes (`execPop_eq`), that of SP over that of R7. -/
theorem popLoadsAndRaisesTheStackPointer : Obligations.PopLoadsAndRaisesTheStackPointer := by
  unfold Obligations.PopLoadsAndRaisesTheStackPointer
  intro s a v hlt hv
  obtain rfl : s.loadByte s.sp = v := Option.some.inj ((peek_byte s s.sp).symm.trans hv)
  have hload : SameRegsBut [a, 7] s (s.setReg a (s.loadByte s.sp)) :=
    SameRegsBut.setReg (fun _ _ => rfl) List.mem_cons_self _
  refine ⟨_, execPop_eq s a hlt, fun (ha : a ≠ spReg) => ⟨?_, ?_⟩,
    fun (ha : a = spReg) => ?_, hload.setReg (by simp [spReg]) _, fun _ => rfl, rfl, rfl, rfl, ⟨rfl, rfl⟩,
    rfl, rfl⟩
  · rw [advance_x, setReg_x, if_neg ha.symm, setReg_x_same, sp_eq]
  · rw [sp_eq, advance_x, setReg_x_same, if_neg ha, ← sp_eq]
    bv_omega
  · rw [sp_eq, advance_x, setReg_x_same, if_pos ha, BitVec.toNat_add]
    rfl

/-- Settles O37: from 244 on POP is the stop (`execPop_empty`). -/
theorem popOfAnEmptyStackStops : Obligations.PopOfAnEmptyStackStops := by
  unfold Obligations.PopOfAnEmptyStackStops
  exact fun s a h => ⟨_, execPop_empty s a h, stoppedWith_stopWith s _ _ _⟩

/-- Settles O38: CALL is a push (`storeAtSp_decSp`) of the return address, and then a jump to the register as the push
left it (`decSp_x`). -/
theorem callPushesTheReturnAddress : Obligations.CallPushesTheReturnAddress := by
  unfold Obligations.CallPushesTheReturnAddress
  intro s a
  obtain ⟨hsp, hbyte, hmem, hregs, -, hrest⟩ := storeAtSp_decSp s s.returnAddress
  have htarget : (s.decSp.storeAtSp s.returnAddress).x a = if a = 7 then s.decSp.sp else s.x a :=
    (storeByte_x s.decSp _ _ a).trans (decSp_x s a)
  exact ⟨decSp_sp_toNat s, _, rfl, hsp, hbyte.trans (congrArg some (returnAddress_eq s)),
    congrArg BitVec.toNat htarget, hmem, hregs, hrest⟩

/-- Settles O39: RET jumps to the byte an observer sees at SP (`peek_byte`) and writes SP (`execRet_eq`). -/
theorem retPopsTheProgramCounter : Obligations.RetPopsTheProgramCounter := by
  unfold Obligations.RetPopsTheProgramCounter
  intro s v hv
  obtain rfl : s.loadByte s.sp = v := Option.some.inj ((peek_byte s s.sp).symm.trans hv)
  refine ⟨_, execRet_eq s, rfl, ?_, SameRegsBut.setReg (fun _ _ => rfl) List.mem_cons_self _, fun _ => rfl,
    rfl, rfl, ⟨rfl, rfl⟩, rfl, rfl⟩
  rw [sp_eq, setReg_x_same, BitVec.toNat_add]
  rfl

/-- Settles O40: after the PUSH (O35) SP is below 244 and at the pushed byte, which is what the POP (O36) then loads. -/
theorem pushThenPopRestoresTheStack : Obligations.PushThenPopRestoresTheStack := by
  unfold Obligations.PushThenPopRestoresTheStack
  intro s a b hb hlo hhi
  obtain ⟨hdec, t, ht, htsp, htbyte, htmem, htregs, htpc, htrest⟩ := pushStoresBelowTheStackPointer s a
  have hbelow : s.decSp.sp.toNat = s.sp.toNat - 1 := by omega
  obtain ⟨u, hu, hload, -, huregs, humem, hupc, hurest⟩ :=
    popLoadsAndRaisesTheStackPointer t b _ (by rw [htsp]; omega) (by rw [htsp]; exact htbyte)
  obtain ⟨hub, husp⟩ := hload hb
  have hsp : u.sp = s.sp := BitVec.eq_of_toNat_eq (by rw [husp, htsp]; omega)
  have hregs : SameRegsBut [b] s u := fun r hr => by
    by_cases h7 : r = 7
    · rw [h7]
      exact hsp
    · exact (huregs r (by simpa [h7] using hr)).trans (htregs r (by simp [h7]))
  have hmem : SameMemoryBut (s.sp.toNat - 1) s u := fun q hq => (humem q).trans (htmem q (hbelow ▸ hq))
  have hmoved : s.decSp.sp = s.sp - 1#8 := by bv_omega
  exact ⟨t, u, ht, hu, hmoved ▸ hub, hsp, by rw [hupc, htpc], hregs, hmem, htrest.trans hurest⟩

/-- Settles O41: the RET (O39) finds SP and the return address as the CALL (O38) left them, and below 254 the low byte
of `pc + 2` is `pc + 2`. -/
theorem callThenMatchingRetReturns : Obligations.CallThenMatchingRetReturns := by
  unfold Obligations.CallThenMatchingRetReturns
  intro s t u a hpc ht hsp hbyte
  obtain ⟨hdec, t', ht', htsp, htbyte, -⟩ := callPushesTheReturnAddress s a
  obtain rfl := next_unique ht' ht
  obtain ⟨v, hv, hvpc, hvsp, -⟩ := retPopsTheProgramCounter u _ (by rw [hsp, hbyte, htsp]; exact htbyte)
  refine ⟨v, hv, ?_, BitVec.eq_of_toNat_eq ?_⟩
  · rw [hvpc, BitVec.toNat_ofNat]
    omega
  · rw [hvsp, hsp, htsp]
    omega

end Sys2Proof.Machine
end

section
/-! SUPPORT. The frames of an instruction that only sets pc, and of a stop without a diagnostic. -/

namespace Sys2Proof.Machine

variable {s : State} {i : Instr} {p : Nat}

/-- Setting pc is all that `MovesOnlyPc` allows. -/
theorem movesOnlyPc_of_exec_eq (h : exec i s = .next (s.setPc p)) : MovesOnlyPc i p s :=
  ⟨_, h, rfl, fun _ _ => rfl, fun _ => rfl, rfl, rfl, ⟨rfl, rfl⟩, rfl, rfl⟩

/-- Advancing pc is setting it, so it moves nothing else (`advance_eq_setPc`). -/
theorem movesOnlyPc_of_exec_advance {w : Nat} (h : exec i s = .next (s.advance w)) : MovesOnlyPc i (s.pc + w) s :=
  movesOnlyPc_of_exec_eq (h.trans (congrArg _ (advance_eq_setPc s w)))

/-- The stop of R241 of 60_exceptions.md on its own, with no diagnostic before it. -/
theorem stoppedWith_raiseStop (s : State) (cause : HaltCause) : StoppedWith [] cause s (s.raiseStop cause) :=
  ⟨rfl, rfl, (List.append_nil s.trace).symm, fun _ _ => rfl, rfl, rfl, fun _ => rfl, rfl, rfl⟩

end Sys2Proof.Machine
end

section
/-! PROOFS. Jumps and system instructions of 44_control_and_system.md: JMP, JEQ and JNE (O42), the stubs, INT, IRET and NOP
(O43), HLT (O44). -/

namespace Sys2Proof.Machine

/-- Settles O42: each of the three sets pc (`execJmp_eq`, `execJeq_eq`, `execJne_eq`); JNE is stated by the clear bit, and
its law by the set one. -/
theorem jumpsFollowTheEqualFlag : Obligations.JumpsFollowTheEqualFlag := by
  unfold Obligations.JumpsFollowTheEqualFlag
  intro s a
  have hjne : (if s.fl.getLsbD 0 = true then s.pc + 2 else (s.x a).toNat) =
      if s.fl.getLsbD 0 = false then (s.x a).toNat else s.pc + 2 := by
    cases s.fl.getLsbD 0 <;> rfl
  exact ⟨movesOnlyPc_of_exec_eq (execJmp_eq s a), movesOnlyPc_of_exec_eq (execJeq_eq s a),
    hjne ▸ movesOnlyPc_of_exec_eq (execJne_eq s a)⟩

/-- Settles O43: the handler of each of the six is one advance of pc, whatever the unused field holds. -/
theorem stubsAndNearNoOpsOnlyAdvance : Obligations.StubsAndNearNoOpsOnlyAdvance := by
  unfold Obligations.StubsAndNearNoOpsOnlyAdvance
  exact fun s a => ⟨movesOnlyPc_of_exec_advance rfl, movesOnlyPc_of_exec_advance rfl, movesOnlyPc_of_exec_advance rfl,
    movesOnlyPc_of_exec_advance rfl, movesOnlyPc_of_exec_advance rfl, movesOnlyPc_of_exec_advance rfl⟩

/-- Settles O44: HLT is the bare stop (`stoppedWith_raiseStop`); it never reaches an advance of pc (D8). -/
theorem hltEndsTheRun : Obligations.HltEndsTheRun := by
  unfold Obligations.HltEndsTheRun
  exact fun s => ⟨_, rfl, stoppedWith_raiseStop s .hlt⟩

end Sys2Proof.Machine
end

section
/-! PROOFS. Exceptions of 60_exceptions.md: no instruction faults (O45), a stop changes nothing else (O50), an addressing
error ends the run (O55). -/

namespace Sys2Proof.Machine

variable {s t : State} {i : Instr}

/-- Settles O45, by `exec_effect`. -/
theorem everyInstructionHasANextState : Obligations.EveryInstructionHasANextState := by
  unfold Obligations.EveryInstructionHasANextState
  intro i s
  obtain ⟨t, ht, -⟩ := exec_effect i s
  exact ⟨t, ht⟩

/-! ### Stops are precise -/

/-- The causes of R241 of 60_exceptions.md that a step can stop with: all of them but INTERNAL (R107 of
40_execution_loop.md). -/
def stepStopCauses : List HaltCause :=
  [.hlt, .stackUnderflow, .divByZero, .unknownOpcode, .operandFault, .badRegister]

/-- The run has stopped for one of the causes a step can have, with events appended and nothing else changed. -/
def StopsPrecisely (s t : State) : Prop := ∃ cause ∈ stepStopCauses, ∃ events, StoppedWith events cause s t

/-- An instruction that ends the run is one of the three stops (HLT, division by zero, stack underflow): the other effects
leave `halted` alone. -/
theorem Effect.stops_precisely (he : Effect s i t) (hs : s.halted = false) (ht : t.halted = true) :
    StopsPrecisely s t := by
  cases he with
  | moves | stores | prints | compares => exact absurd (hs.symm.trans ht) Bool.false_ne_true
  | halts => exact ⟨.hlt, by decide, _, stoppedWith_raiseStop s .hlt⟩
  | divides => exact ⟨.divByZero, by decide, _, stoppedWith_stopWith s _ _ _⟩
  | underflows => exact ⟨.stackUnderflow, by decide, _, stoppedWith_stopWith s _ _ _⟩

/-- A stop before any handler is precise (R102 to R105 of 40_execution_loop.md). -/
theorem StopsBefore.stops_precisely {m : OpcodeMap} {events : List Event} {cause : HaltCause}
    (h : StopsBefore m s events cause) :
    StopsPrecisely s ({ s with trace := s.trace ++ events }.raiseStop cause) := by
  have hcause : cause ∈ stepStopCauses := by
    rcases h.cause with rfl | rfl | rfl <;> decide
  exact ⟨cause, hcause, events, rfl, rfl, rfl, fun _ _ => rfl, rfl, rfl, fun _ => rfl, rfl, rfl⟩

/-- A step that ends the run of a Running core is its tick and a precise stop (R246 of 60_exceptions.md). -/
theorem step_stops_precisely (hs : s.halted = false) (h : step s = .next t) (ht : t.halted = true) :
    StopsPrecisely s.beginStep t := by
  rcases next_step_cases h with ⟨hh, -⟩ | ⟨-, -, i, -, he⟩ | ⟨-, events, cause, hstop, rfl⟩
  · exact absurd (hs.symm.trans hh) Bool.false_ne_true
  · exact he.stops_precisely hs ht
  · exact hstop.stops_precisely

/-- Settles O50, by `step_stops_precisely`; the tick moves neither pc nor FL nor memory. -/
theorem stopsChangeNothingElse : Obligations.StopsChangeNothingElse := by
  unfold Obligations.StopsChangeNothingElse
  refine ⟨fun s c => rfl, fun s t hs h ht => ?_⟩
  obtain ⟨cause, hcause, events, -, rfl, -, hregs, hpc, hfl, hmem, -⟩ := step_stops_precisely hs h ht
  exact ⟨hregs, hpc, hfl, hmem, hcause⟩

/-! ### Addressing errors -/

/-- The tick reports nothing but itself (R112 of 40_execution_loop.md). -/
theorem beginStep_diagCount {code : DiagCode} (h : code ≠ .tick) (s : State) :
    diagCount code s.beginStep.trace = diagCount code s.trace := by
  rw [beginStep_trace]
  split
  · exact diagCount_append_of_forall_ne (by simp [h.symm])
  · rfl

/-- No instruction reports an addressing error: its data addresses are bytes (R54 of 20_memory.md). -/
theorem Effect.reports_no_addrError (he : Effect s i t) : diagCount .addrError t.trace = diagCount .addrError s.trace := by
  cases he with
  | moves | stores | compares | halts => rfl
  | prints | divides | underflows => exact diagCount_append_of_forall_ne (by simp)

/-- Settles O55: a step that goes on has run an instruction after its tick, and neither reports an addressing error
(`beginStep_diagCount`, `Effect.reports_no_addrError`); the stops before a handler end the run. -/
theorem addressingErrorsOnlyInStoppingSteps : Obligations.AddressingErrorsOnlyInStoppingSteps := by
  unfold Obligations.AddressingErrorsOnlyInStoppingSteps
  intro s t hs h ht
  rcases next_step_cases h with ⟨hh, -⟩ | ⟨-, -, i, -, he⟩ | ⟨-, events, cause, -, rfl⟩
  · exact absurd (hs.symm.trans hh) Bool.false_ne_true
  · exact he.reports_no_addrError.trans (beginStep_diagCount (by decide) s)
  · cases ht

end Sys2Proof.Machine
end

section
/-! SUPPORT. The constructed core, and an image loaded byte by byte: the loader's writes are the rising stores of
`State.placeBytes`. -/

namespace Sys2Proof.Machine

/-! ### The constructed core -/

theorem reset_x (r : Reg) : State.reset.x r = 0#8 := Vector.getElem_replicate r.isLt

theorem reset_peek {a : Nat} (h : a < 256) : State.reset.peek a = some 0#8 := peek_of_lt State.reset h

/-! ### The start of a run -/

theorem hostRun_constructed {s : State} (h : s.phase = .constructed) : hostRun s = .next s.startRun := by
  rw [hostRun, h]

/-- Of the registers, the start of a run writes SP alone. -/
theorem startRun_sameRegsBut (s : State) : SameRegsBut [spReg] s s.startRun :=
  SameRegsBut.setReg (fun _ _ => rfl) List.mem_cons_self spInit

/-! ### Loading -/

theorem loadFrom_eq_placeBytes (vs : List Byte) (s : State) (a : Nat) : s.loadFrom a vs = s.placeBytes a vs := by
  induction vs generalizing s a with
  | nil => rfl
  | cons v vs ih => exact ih (s.memWrite a v) (a + 1)

/-- Bytes are placed up to the last of them: nothing after it changes. -/
theorem placeBytes_peek_above (vs : List Byte) (s : State) {a b : Nat} (h : a + vs.length ≤ b) :
    (s.placeBytes a vs).peek b = s.peek b := by
  induction vs generalizing s a with
  | nil => rfl
  | cons v vs ih =>
    rw [List.length_cons] at h
    rw [State.placeBytes, ih _ (by omega), memWrite_peek_ne s v (by omega)]

/-- Bytes for which there is room change memory and nothing else; without room they would also reach the trace. -/
theorem placeBytes_eq_of_le (vs : List Byte) (s : State) {a : Nat} (h : a + vs.length ≤ 256) :
    ∃ mem, s.placeBytes a vs = { s with mem := mem } := by
  induction vs generalizing s a with
  | nil => exact ⟨s.mem, rfl⟩
  | cons v vs ih =>
    rw [List.length_cons] at h
    rw [State.placeBytes, memWrite_of_lt s v (by omega)]
    exact ih { s with mem := s.mem.write a v } (by omega)

end Sys2Proof.Machine
end

section
/-! PROOFS. Reset and launch of 70_reset_and_hazards.md: a loaded image (O5), construction (O1), the start of a run (O2),
the invariant at construction (O59). -/

namespace Sys2Proof.Machine

/-- Settles O5: the image lies where it was placed (`placeBytes_bytesAtPc`), the rest of memory is as constructed
(`placeBytes_peek_above`), and only memory has changed (`placeBytes_eq_of_le`). -/
theorem loadedImageLiesAtZero : Obligations.LoadedImageLiesAtZero := by
  unfold Obligations.LoadedImageLiesAtZero
  intro image hlen
  have hroom : 0 + image.length ≤ 256 := by rwa [Nat.zero_add]
  rw [State.loadImage, loadFrom_eq_placeBytes]
  have hbytes := placeBytes_bytesAtPc image State.reset hroom
  have hrest : ∀ a, image.length ≤ a → a < 256 → (State.reset.placeBytes 0 image).peek a = some 0#8 := fun a ha hlt =>
    (placeBytes_peek_above image State.reset (by rwa [Nat.zero_add])).trans (reset_peek hlt)
  obtain ⟨mem, hmem⟩ := placeBytes_eq_of_le image State.reset hroom
  refine ⟨fun k hk => ?_, hrest, ?_⟩
  · simpa using hbytes k hk
  · rw [hmem]
    exact ⟨fun _ _ => rfl, rfl, rfl, rfl, ⟨rfl, rfl⟩, rfl, rfl⟩

/-- Settles O1: the fields are those of `State.reset`; the registers are `reset_x`, memory `reset_peek` and, past its end,
`peek_of_ge`. -/
theorem constructionIsZeroedAndHalted : Obligations.ConstructionIsZeroedAndHalted := by
  unfold Obligations.ConstructionIsZeroedAndHalted
  exact ⟨reset_x, rfl, rfl, fun _ => reset_peek, fun _ => peek_of_ge State.reset, rfl, rfl, rfl, rfl, rfl⟩

/-- Settles O2: `run` (`hostRun_constructed`) and the step (`step_constructed`) of a constructed core are both `startRun`. -/
theorem runStartsAConstructedCore : Obligations.RunStartsAConstructedCore := by
  unfold Obligations.RunStartsAConstructedCore
  intro s hh hc
  have hsp : (s.startRun.x spReg).toNat = 244 := by rw [startRun_x, if_pos rfl, spInit_toNat]
  exact ⟨s.startRun, hostRun_constructed (phase_constructed hh hc), step_constructed hh hc, rfl, hsp, rfl,
    startRun_sameRegsBut s, rfl, rfl, fun _ => rfl, rfl, rfl, rfl⟩

/-- Settles O59: an empty memory is canonical (`Memory.reset_wf`), pc and FL are 0, and the core is Halted with cause
NONE. -/
theorem constructionSatisfiesTheInvariant : Obligations.ConstructionSatisfiesTheInvariant := by
  unfold Obligations.ConstructionSatisfiesTheInvariant
  exact ⟨Memory.reset_wf, Nat.zero_le 258, .inl rfl, fun _ => rfl, nofun⟩

end Sys2Proof.Machine
end
